-- ==== Sys2Proof/Word.lean ====
section
/-! DEFINITION. The word types of the nasko-rs CORE (00_scope.md R8, R11). -/

namespace Sys2Proof

/-- A byte: 8 bits, bit 0 the least significant (R11). Opcodes, register indices and fillers are bytes (R64). -/
abbrev Byte := BitVec 8

/-- An integer register, the remainder register, or the program counter: 32 bits (R8).
Registers are read as two's complement (`BitVec.toInt`), `pc` as unsigned (`BitVec.toNat`). -/
abbrev Word := BitVec 32

/-- The 16-bit immediate of Load, the one immediate of the instruction set (R60, R64). -/
abbrev Imm16 := BitVec 16

/-- A floating-point register: a 64-bit pattern that no rule reads as a number (10_state.md R23). -/
abbrev FpPattern := BitVec 64

end Sys2Proof
end

