-- ==== Sys2Proof/Config.lean ====
section
/-! DEFINITION. What a build or a construction of the engine fixes (00_scope.md R8): the parameters with a
default and an alternative, as data; the parameters the spec leaves OPEN and the values drawn from the host,
as opaque constants of which nothing can be proved. The default values stand in Machine/Defaults.lean. -/

namespace Sys2Proof

/-- The closed set of decoder outputs (30_encoding.md R52): the 15 operations in the order the spec lists
them, and the fallback for a byte with no defined meaning. -/
inductive Tag where
  | halt | load | add | sub | mul | div | eq | neq
  | jmp | jmpForward | jmpBackward | gt | gte | lt | lte
  | illegal
  deriving DecidableEq, Repr

/-- `OVERFLOW_POLICY` (R8, 92_eei_decisions.md D4): what Add, Sub, Mul and Div do with an exact result
outside the 32-bit signed range. -/
inductive OverflowPolicy where
  | wrap   -- reduce modulo 2^32
  | crash  -- Crash reason 5, nothing written
  deriving DecidableEq, Repr

/-- The parameters of R8 that have a default and an alternative, fixed when an engine is constructed.
Entry `n` of `opcodeMap` is the operation that opcode byte `n` names (`OPCODE_MAP`, 30_encoding.md R53);
a byte past its end is Illegal (R54). -/
structure Config where
  opcodeMap : List Tag
  fpBankReachable : Bool
  loadImmSigned : Bool
  overflowPolicy : OverflowPolicy
  deriving DecidableEq, Repr

/-- `START_REASON`, the reason code of the Start event: OPEN, "no claim may depend on it"
(60_exceptions.md R111). A free value. -/
opaque Config.startReason : Nat

/-- The host's clock: the timestamp it gives for the draw with this number on the engine with this
identity (60_exceptions.md R120, "a free draw per event"). A free value. -/
opaque Config.hostClock (identity draw : Nat) : Nat

/-- The identity token the host gave the engine that `State.reset` stands for (R120). A free value. -/
opaque Config.engineIdentity : Nat

/-- `PARALLEL_UNITS`, the count the host gave that engine (R8, R35): OPEN, no effect. A free value. -/
opaque Config.parallelUnits : Nat

/-- The heap as construction leaves it: its size `HEAP_BYTES` and its contents are OPEN
(20_memory.md R39). A free value. -/
opaque Config.initialHeap : List Byte

/-- `STACK_WORD_BITS`, the width of a stack word: OPEN (R39). A free value. -/
opaque Config.stackWordBits : Nat

/-- The stack as construction leaves it: its size `STACK_WORDS` and its contents are OPEN (R39).
A free value. -/
opaque Config.initialStack : List (BitVec Config.stackWordBits)

/-- `HEAP_BYTES` (R8): the size of the reserved heap. -/
def Config.heapBytes : Nat := Config.initialHeap.length

/-- `STACK_WORDS` (R8): the size of the reserved stack. -/
def Config.stackWords : Nat := Config.initialStack.length

end Sys2Proof
end

