-- ==== Sys2Proof/Syntax.lean ====
section
/-! DEFINITION. The instructions: one constructor for each tag of 30_encoding.md R52, with its operands in
encoding order (R58). -/

namespace Sys2Proof

/-- An instruction with its decoded operand bytes. Register operands are raw index bytes, 0 to 255 (R64).
A comparison keeps its filler byte, which the engine consumes and ignores (R62), so that no bit of an
encoding is dropped. `illegal` keeps the byte that was fetched (R54); the table's five Illegal rows are
this one tag. -/
inductive Instr where
  | halt
  | load (rd : Byte) (imm : Imm16)
  | add (rs1 rs2 rd : Byte)
  | sub (rs1 rs2 rd : Byte)
  | mul (rs1 rs2 rd : Byte)
  | div (rs1 rs2 rd : Byte)
  | eq (ra rb filler : Byte)
  | neq (ra rb filler : Byte)
  | jmp (rr : Byte)
  | jmpForward (rr : Byte)
  | jmpBackward (rr : Byte)
  | gt (ra rb filler : Byte)
  | gte (ra rb filler : Byte)
  | lt (ra rb filler : Byte)
  | lte (ra rb filler : Byte)
  | illegal (op : Byte)
  deriving DecidableEq, Repr

/-- The operation an instruction performs. -/
def Instr.tag : Instr → Tag
  | .halt => .halt
  | .load _ _ => .load
  | .add _ _ _ => .add
  | .sub _ _ _ => .sub
  | .mul _ _ _ => .mul
  | .div _ _ _ => .div
  | .eq _ _ _ => .eq
  | .neq _ _ _ => .neq
  | .jmp _ => .jmp
  | .jmpForward _ => .jmpForward
  | .jmpBackward _ => .jmpBackward
  | .gt _ _ _ => .gt
  | .gte _ _ _ => .gte
  | .lt _ _ _ => .lt
  | .lte _ _ _ => .lte
  | .illegal _ => .illegal

/-- The register operand bytes of an instruction, in encoding order (R58, R64). The filler of a comparison
is no register operand (R62). -/
def Instr.regs : Instr → List Byte
  | .halt => []
  | .load rd _ => [rd]
  | .add rs1 rs2 rd => [rs1, rs2, rd]
  | .sub rs1 rs2 rd => [rs1, rs2, rd]
  | .mul rs1 rs2 rd => [rs1, rs2, rd]
  | .div rs1 rs2 rd => [rs1, rs2, rd]
  | .eq ra rb _ => [ra, rb]
  | .neq ra rb _ => [ra, rb]
  | .jmp rr => [rr]
  | .jmpForward rr => [rr]
  | .jmpBackward rr => [rr]
  | .gt ra rb _ => [ra, rb]
  | .gte ra rb _ => [ra, rb]
  | .lt ra rb _ => [ra, rb]
  | .lte ra rb _ => [ra, rb]
  | .illegal _ => []

end Sys2Proof
end

