-- ==== Sys2Proof/WellFormed.lean ====
section
/-! DEFINITION. Which instructions and which parameters the spec admits. -/

namespace Sys2Proof

/-- The 15 operations in the order the spec lists them (30_encoding.md R53). -/
def Tag.operations : List Tag :=
  [.halt, .load, .add, .sub, .mul, .div, .eq, .neq, .jmp, .jmpForward, .jmpBackward, .gt, .gte, .lt, .lte]

/-- Every byte operand is legal (R65); the one check is that the byte of `illegal` is one of 15 to 255
(R54). -/
def Instr.wellFormed : Instr → Bool
  | .halt => true
  | .load _ _ => true
  | .add _ _ _ => true
  | .sub _ _ _ => true
  | .mul _ _ _ => true
  | .div _ _ _ => true
  | .eq _ _ _ => true
  | .neq _ _ _ => true
  | .jmp _ => true
  | .jmpForward _ => true
  | .jmpBackward _ => true
  | .gt _ _ _ => true
  | .gte _ _ _ => true
  | .lt _ _ _ => true
  | .lte _ _ _ => true
  | .illegal op => decide (15 ≤ op.toNat)

/-- A map of the bytes 0 to 14 to the 15 operations, each named by exactly one byte (R53, R54). -/
abbrev OpcodeMapWF (m : List Tag) : Prop := m.Perm Tag.operations

/-- The parameters a model may be built with (00_scope.md R8): the opcode map names each operation once;
the other parameters take any of their values. -/
abbrev Config.WellFormed (c : Config) : Prop := OpcodeMapWF c.opcodeMap

end Sys2Proof
end

