-- ==== Sys2Proof/Decode.lean ====
section
/-! DEFINITION. The Instruction Decoder and, after it, the encoder (30_encoding.md). The decoder is total on
any bytes: a missing byte is the one thing it rejects, by name. -/

namespace Sys2Proof

/-! ### The opcode byte -/

/-- The default of `OPCODE_MAP`: byte `n` is the operation listed at place `n` (R53, the spec's D1). -/
def standardOpcodeMap : List Tag :=
  [.halt, .load, .add, .sub, .mul, .div, .eq, .neq, .jmp, .jmpForward, .jmpBackward, .gt, .gte, .lt, .lte]

/-- `Decode : byte -> Tag` (R52): a byte the map does not reach is Illegal (R54). -/
def decodeTag (m : List Tag) (op : Byte) : Tag := (m[op.toNat]?).getD .illegal

/-- `len(tag)`: the bytes an instruction consumes, its opcode byte included (R55). -/
def Tag.length : Tag → Nat
  | .halt | .illegal => 1
  | .jmp | .jmpForward | .jmpBackward => 2
  | .load | .add | .sub | .mul | .div | .eq | .neq | .gt | .gte | .lt | .lte => 4

/-- The longest instruction (R55). -/
def maxInstrBytes : Nat := 4

/-! ### The decoder -/

/-- Why no instruction can be read from a list of bytes. -/
inductive DecodeError where
  /-- There is no opcode byte. -/
  | noByte
  /-- The opcode byte is there, and an operand byte of its operation is missing (40_run_loop.md R80). -/
  | truncated (tag : Tag)
  deriving DecidableEq, Repr

/-- `{hi, lo}`: the two immediate bytes of Load, the high byte first (R60, 20_memory.md R41). -/
def immOf (hi lo : Byte) : Imm16 := BitVec.ofNat 16 (256 * hi.toNat + lo.toNat)

/-- The operands of the operation `t`, read from the bytes after its opcode byte `op`, and the bytes that
follow the instruction. Formats N, RI, RRR, RRF and R of R58. -/
def decodeOperands (t : Tag) (op : Byte) (bytes : List Byte) : Except DecodeError (Instr × List Byte) :=
  match t, bytes with
  | .halt, rest => .ok (.halt, rest)
  | .illegal, rest => .ok (.illegal op, rest)
  | .load, rd :: hi :: lo :: rest => .ok (.load rd (immOf hi lo), rest)
  | .add, rs1 :: rs2 :: rd :: rest => .ok (.add rs1 rs2 rd, rest)
  | .sub, rs1 :: rs2 :: rd :: rest => .ok (.sub rs1 rs2 rd, rest)
  | .mul, rs1 :: rs2 :: rd :: rest => .ok (.mul rs1 rs2 rd, rest)
  | .div, rs1 :: rs2 :: rd :: rest => .ok (.div rs1 rs2 rd, rest)
  | .eq, ra :: rb :: filler :: rest => .ok (.eq ra rb filler, rest)
  | .neq, ra :: rb :: filler :: rest => .ok (.neq ra rb filler, rest)
  | .gt, ra :: rb :: filler :: rest => .ok (.gt ra rb filler, rest)
  | .gte, ra :: rb :: filler :: rest => .ok (.gte ra rb filler, rest)
  | .lt, ra :: rb :: filler :: rest => .ok (.lt ra rb filler, rest)
  | .lte, ra :: rb :: filler :: rest => .ok (.lte ra rb filler, rest)
  | .jmp, rr :: rest => .ok (.jmp rr, rest)
  | .jmpForward, rr :: rest => .ok (.jmpForward rr, rest)
  | .jmpBackward, rr :: rest => .ok (.jmpBackward rr, rest)
  | t, _ => .error (.truncated t)

/-- The instruction at the head of a list of bytes, and the bytes after it (R56, R58). -/
def decode (m : List Tag) (bytes : List Byte) : Except DecodeError (Instr × List Byte) :=
  match bytes with
  | [] => .error .noByte
  | op :: rest => decodeOperands (decodeTag m op) op rest

/-! ### The encoder -/

/-- The byte that names an operation: its place in the map (R53). -/
def opcodeByte (m : List Tag) (t : Tag) : Byte := BitVec.ofNat 8 (m.idxOf t)

/-- `imm[15:8]`, the first immediate byte (R60). -/
def immHi (imm : Imm16) : Byte := BitVec.ofNat 8 (imm.toNat / 256)

/-- `imm[7:0]`, the second immediate byte (R60). -/
def immLo (imm : Imm16) : Byte := BitVec.ofNat 8 (imm.toNat % 256)

/-- The bytes of an instruction (R58-R63, R70). -/
def encode (m : List Tag) : Instr → List Byte
  | .halt => [opcodeByte m .halt]
  | .load rd imm => [opcodeByte m .load, rd, immHi imm, immLo imm]
  | .add rs1 rs2 rd => [opcodeByte m .add, rs1, rs2, rd]
  | .sub rs1 rs2 rd => [opcodeByte m .sub, rs1, rs2, rd]
  | .mul rs1 rs2 rd => [opcodeByte m .mul, rs1, rs2, rd]
  | .div rs1 rs2 rd => [opcodeByte m .div, rs1, rs2, rd]
  | .eq ra rb filler => [opcodeByte m .eq, ra, rb, filler]
  | .neq ra rb filler => [opcodeByte m .neq, ra, rb, filler]
  | .jmp rr => [opcodeByte m .jmp, rr]
  | .jmpForward rr => [opcodeByte m .jmpForward, rr]
  | .jmpBackward rr => [opcodeByte m .jmpBackward, rr]
  | .gt ra rb filler => [opcodeByte m .gt, ra, rb, filler]
  | .gte ra rb filler => [opcodeByte m .gte, ra, rb, filler]
  | .lt ra rb filler => [opcodeByte m .lt, ra, rb, filler]
  | .lte ra rb filler => [opcodeByte m .lte, ra, rb, filler]
  | .illegal op => [op]

/-! ### A table word as bytes -/

/-- The first `n` bytes of a number, the least significant byte first: the opcode table numbers the bits of
an instruction from its first byte. -/
def bytesOfNat : Nat → Nat → List Byte
  | 0, _ => []
  | n + 1, w => BitVec.ofNat 8 (w % 256) :: bytesOfNat n (w / 256)

/-- The bytes of the longest instruction whose low `nbits` bits are those of `w` and whose other bits
are 0. -/
def wordBytes (nbits w : Nat) : List Byte := bytesOfNat maxInstrBytes (w % 2 ^ nbits)

/-- The instruction the decoder reads, under the default map, from an instruction whose bits are `w`. -/
def decodeTableWord (nbits w : Nat) : Option Instr :=
  match decode standardOpcodeMap (wordBytes nbits w) with
  | .ok (i, _) => some i
  | .error _ => none

end Sys2Proof
end

