-- ==== Sys2Proof/Machine/Defaults.lean ====
section
/-! DEFINITION. The values the spec fixes for the parameters and constants of the engine (00_scope.md R8). -/

namespace Sys2Proof.Machine

/-- The defaults of the parameters of R8: `OPCODE_MAP` the listing order (D1), `FP_BANK_REACHABLE` false
(D2), `LOAD_IMM_SIGNED` false (D3), `OVERFLOW_POLICY` wrap (D4, D7). -/
def standardConfig : Config :=
  { opcodeMap := standardOpcodeMap
    fpBankReachable := false
    loadImmSigned := false
    overflowPolicy := .wrap }

/-- `MAGIC`: the four header bytes (30_encoding.md R57). -/
def magic : List Byte := [78, 83, 75, 79]

/-- `ENTRY`: the offset of the first instruction (20_memory.md R45, 70_reset_and_hazards.md R127). -/
def entry : Word := 4

/-- `MAX_PROGRAM_LEN`: the largest program buffer (20_memory.md R37, D10). -/
def maxProgramLength : Nat := 2 ^ 31

end Sys2Proof.Machine
end

