-- ==== Sys2Proof/Machine/State.lean ====
section
/-! DEFINITION. The state of the engine as plain data (10_state.md R36), why a step can stop, and the state
after Construct (70_reset_and_hazards.md R126). -/

namespace Sys2Proof.Machine

/-- The run state (10_state.md R32). The last three are terminal. -/
inductive RunState where
  | notStarted | running | haltedOk | endOfProgram | crashed
  deriving DecidableEq, Repr

/-- The tag of a lifecycle event (10_state.md R34). -/
inductive EventTag where
  | start | gracefulStop | crash
  deriving DecidableEq, Repr

/-- A lifecycle event (R34): a tag, a numeric reason code, a timestamp, and the owning engine's identity. -/
structure Event where
  tag : EventTag
  reason : Nat
  timestamp : Nat
  identity : Nat
  deriving DecidableEq, Repr

/-- Why a run stops gracefully (60_exceptions.md R109). -/
inductive StopReason where
  | gracefulHalt | endOfProgram
  deriving DecidableEq, Repr

/-- Why a run crashes (60_exceptions.md R109). -/
inductive CrashReason where
  | invalidHeader | incompleteBytecode | unknownOpcode | divisionByZero | arithmeticOverflow
  deriving DecidableEq, Repr

/-- The program buffer (20_memory.md R37): `length` is `L`; `cells` lists the offsets below `L` whose byte
is not 0, with their bytes, offsets rising. An offset below `L` that is not listed holds 0. -/
structure Memory where
  cells : List Host.Cell
  length : Nat
  deriving DecidableEq, Repr

/-- The whole architectural state (10_state.md R36), the construction values of R35 and R8, and one field of
the model's own, `clockDraws`: how many timestamps have been drawn from the host's clock. -/
structure State where
  x : Vector Word 32
  f : Vector FpPattern 32
  rem : Word
  flag : Bool
  pc : Word
  runState : RunState
  events : List Event
  program : Memory
  heap : List Byte
  stack : List (BitVec Config.stackWordBits)
  identity : Nat
  parallelUnits : Nat
  config : Config
  clockDraws : Nat
  deriving DecidableEq, Repr

/-- Why the machine is stuck. -/
inductive Fault where
  /-- Raised by `step` in a terminal run state, from which the spec defines no step (40_run_loop.md R74,
  R85; 93_implementation_defined.md U20). Safe: the model stops where the engine executes nothing. -/
  | runOver
  deriving DecidableEq, Repr

/-- Why the model gives no meaning. -/
inductive Refusal where
  /-- Raised by an arm of `exec` whose instruction has no meaning yet. Safe. No arm raises it now. -/
  | notModelled (mnemonic : String)
  /-- Raised by an instruction with a register operand byte in 32 to 63 when `FP_BANK_REACHABLE` is true: the
  spec gives it no meaning and tells a model to refuse it by name (10_state.md R25). Safe. -/
  | fpBankSemantics
  /-- Raised by Load program for a buffer longer than `MAX_PROGRAM_LEN` (70_reset_and_hazards.md R128). Safe. -/
  | programTooLong
  /-- Raised by Load program outside NotStarted (R128, R132, D22). Safe. -/
  | loadOutsideNotStarted
  /-- Raised by Run outside NotStarted (40_run_loop.md R71, R132, D22). Safe. -/
  | runOutsideNotStarted
  /-- Raised by Read state before the run has ended (10_state.md R33). Safe. -/
  | viewBeforeEnd
  deriving DecidableEq, Repr

/-- Construct (R126), with what the host sends: the identity token and the parallel-units count (R130), and
the parameters the engine is built with (00_scope.md R8). -/
def State.construct (identity parallelUnits : Nat) (config : Config) : State :=
  { x := Vector.replicate 32 0
    f := Vector.replicate 32 0
    rem := 0
    flag := false
    pc := 0
    runState := .notStarted
    events := []
    program := { cells := [], length := 0 }
    heap := Config.initialHeap
    stack := Config.initialStack
    identity := identity
    parallelUnits := parallelUnits
    config := config
    clockDraws := 0 }

/-- The machine right after Construct (R126), built with the defaults of R8. The identity and the count come
from the host and are free values. -/
def State.reset : State := State.construct Config.engineIdentity Config.parallelUnits standardConfig

end Sys2Proof.Machine
end

