-- ==== Sys2Proof/Machine/Ops.lean ====
section
/-! DEFINITION. The named operations over the state: reading the program buffer, moving `pc`, the lifecycle
events, and ending a run. Ending a run is the engine's one form of taking an exception (60_exceptions.md R108,
R112): nothing is saved, no mode changes, no handler runs (R116), and there is no return from it (R117). -/

namespace Sys2Proof.Machine

/-! ### The program buffer (20_memory.md R37, R43, R44) -/

/-- The byte at an offset of a list of cells; an offset that is not listed holds 0. -/
def lookupCell : List Host.Cell → Nat → Byte
  | [], _ => 0
  | (k, b) :: rest, a => if k = a then b else lookupCell rest a

/-- `P[a]`: no byte at or beyond `L` (R44). -/
def Memory.read (m : Memory) (a : Nat) : Option Byte :=
  if a < m.length then some (lookupCell m.cells a) else none

/-- The bytes at `a` and after it, at most `n` of them, as far as the buffer goes. -/
def Memory.window (m : Memory) : Nat → Nat → List Byte
  | _, 0 => []
  | a, n + 1 =>
    match m.read a with
    | some b => b :: m.window (a + 1) n
    | none => []

/-- The cells of a list of bytes whose first byte lies at offset `a`. -/
def cellsFrom : Nat → List Byte → List Host.Cell
  | _, [] => []
  | a, b :: bs => if b = 0 then cellsFrom (a + 1) bs else (a, b) :: cellsFrom (a + 1) bs

/-- The buffer that holds a list of bytes: byte `k` of the list is `P[k]` (70_reset_and_hazards.md R128). -/
def Memory.ofBytes (bytes : List Byte) : Memory := { cells := cellsFrom 0 bytes, length := bytes.length }

/-- The canonical form of a buffer: listed offsets strictly rising and below `L`, and no listed byte 0, so
that equal buffers are equal data. -/
abbrev Memory.wf (m : Memory) : Prop :=
  m.cells.Pairwise (fun c d => c.1 < d.1) ∧ ∀ c ∈ m.cells, c.1 < m.length ∧ c.2 ≠ 0

/-! ### The program counter (10_state.md R26) -/

/-- `pc` moved past `n` consumed bytes. -/
def State.advance (s : State) (n : Nat) : State := { s with pc := s.pc + BitVec.ofNat 32 n }

/-- `pc <- target`, the target already reduced modulo 2^32. -/
def State.setPc (s : State) (target : Word) : State := { s with pc := target }

/-! ### Lifecycle events (10_state.md R34, 60_exceptions.md R111, R112, R120) -/

/-- The reason code of a graceful stop (60_exceptions.md R109). -/
def StopReason.code : StopReason → Nat
  | .gracefulHalt => 0
  | .endOfProgram => 1

/-- The run state a graceful stop leads to (R112). -/
def StopReason.runState : StopReason → RunState
  | .gracefulHalt => .haltedOk
  | .endOfProgram => .endOfProgram

/-- The reason code of a crash (R109). -/
def CrashReason.code : CrashReason → Nat
  | .invalidHeader => 1
  | .incompleteBytecode => 2
  | .unknownOpcode => 3
  | .divisionByZero => 4
  | .arithmeticOverflow => 5

/-- The event the engine emits now: stamped with a fresh timestamp and the engine's identity (R120). -/
def State.stamp (s : State) (tag : EventTag) (reason : Nat) : Event :=
  { tag := tag
    reason := reason
    timestamp := Config.hostClock s.identity s.clockDraws
    identity := s.identity }

/-- Appends an event to the log (R34), drawing its timestamp. -/
def State.emit (s : State) (tag : EventTag) (reason : Nat) : State :=
  { s with events := s.events ++ [s.stamp tag reason], clockDraws := s.clockDraws + 1 }

/-- Enters a run state (10_state.md R32). -/
def State.enter (s : State) (r : RunState) : State := { s with runState := r }

/-- Ends the run: appends the one terminal event and enters a terminal run state; no other state changes
(R112). -/
def State.terminate (s : State) (tag : EventTag) (reason : Nat) (r : RunState) : State :=
  (s.emit tag reason).enter r

/-- `stop GracefulStop(code)` (00_scope.md R14, 60_exceptions.md R112). -/
def State.stop (s : State) (r : StopReason) : State := s.terminate .gracefulStop r.code r.runState

/-- `raise Crash(code)` (00_scope.md R14, 60_exceptions.md R112). -/
def State.crash (s : State) (r : CrashReason) : State := s.terminate .crash r.code .crashed

/-- Whether a run state is terminal (10_state.md R32). -/
def RunState.isTerminal : RunState → Bool
  | .notStarted => false
  | .running => false
  | .haltedOk => true
  | .endOfProgram => true
  | .crashed => true

end Sys2Proof.Machine
end

