-- ==== Sys2Proof/Machine/Operands.lean ====
section
/-! DEFINITION. Operand forms: a register through an 8-bit index, the 16-bit immediate, and the refusal of
floating-point indices when that bank is made reachable (10_state.md R19 to R25). -/

namespace Sys2Proof.Machine

/-- `ReadReg(b)` (10_state.md R19): an index above 31 reads 0. -/
def State.readReg (s : State) (b : Byte) : Word := (s.x[b.toNat]?).getD 0

/-- `WriteReg(b, v)` (R20): a write to an index above 31 changes nothing. -/
def State.writeReg (s : State) (b : Byte) (v : Word) : State := { s with x := s.x.setIfInBounds b.toNat v }

/-- Whether an index byte lies in the range meant for the floating-point bank (R25). -/
def inFpRange (b : Byte) : Bool := decide (32 ≤ b.toNat) && decide (b.toNat ≤ 63)

/-- The meaning of an instruction with these register operand bytes: refused by name when the parameter makes
the floating-point bank reachable and an index lies in its range (R25). -/
def State.withRegs (s : State) (regs : List Byte) (meaning : Host.Outcome State Fault Refusal) :
    Host.Outcome State Fault Refusal :=
  if s.config.fpBankReachable && regs.any inFpRange then .refused .fpBankSemantics else meaning

/-- The register value of the Load immediate (30_encoding.md R60, 42_load.md R89): zero-extended, or
sign-extended under `LOAD_IMM_SIGNED`. -/
def State.loadValue (s : State) (imm : Imm16) : Word :=
  if s.config.loadImmSigned then imm.signExtend 32 else imm.zeroExtend 32

end Sys2Proof.Machine
end

