-- ==== Sys2Proof/Machine/Flags.lean ====
section
/-! DEFINITION. The comparison flag, the remainder register, and the narrowing of exact results to 32 bits with
the overflow policy (00_scope.md R12, 43_arithmetic.md R90). -/

namespace Sys2Proof.Machine

/-- `flag <- v` (10_state.md R29). -/
def State.setFlag (s : State) (v : Bool) : State := { s with flag := v }

/-- `rem <- v` (10_state.md R30). -/
def State.setRem (s : State) (v : Word) : State := { s with rem := v }

/-- `wrap32(n)`, and `mod32(n)` when the word is read as unsigned (00_scope.md R12). -/
def wrap32 (n : Int) : Word := BitVec.ofInt 32 n

/-- Whether an exact result lies in the 32-bit signed range (43_arithmetic.md R90). -/
def fits32 (n : Int) : Bool := decide (-2 ^ 31 ≤ n) && decide (n < 2 ^ 31)

/-- Whether an exact result ends the run with Crash 5: `OVERFLOW_POLICY = crash` and the result out of range
(R90). -/
def State.overflows (s : State) (n : Int) : Bool :=
  decide (s.config.overflowPolicy = .crash) && !fits32 n

/-- The six relations of the comparisons, on signed values (44_comparison.md R96 to R102). -/
inductive Relation where
  | eq | neq | gt | gte | lt | lte
  deriving DecidableEq, Repr

/-- `A rel B`, both values read as signed (R96). -/
def Relation.holds (r : Relation) (a b : Word) : Bool :=
  match r with
  | .eq => decide (a.toInt = b.toInt)
  | .neq => decide (a.toInt ≠ b.toInt)
  | .gt => decide (a.toInt > b.toInt)
  | .gte => decide (a.toInt ≥ b.toInt)
  | .lt => decide (a.toInt < b.toInt)
  | .lte => decide (a.toInt ≤ b.toInt)

end Sys2Proof.Machine
end

