-- ==== Sys2Proof/Machine/Arithmetic.lean ====
section
/-! DEFINITION. Add, Sub, Mul and Div (43_arithmetic.md). Values are read as signed, combined exactly, and
narrowed at the end (R90). Crash 4 and Crash 5 leave `pc` past the operands (60_exceptions.md R109). -/

namespace Sys2Proof.Machine

/-- The common rule of Add, Sub and Mul (R90): read both sources, compute exactly, then Crash 5 or the wrapped
result into the destination. -/
def State.arith (s : State) (op : Int → Int → Int) (rs1 rs2 rd : Byte) : Host.Outcome State Fault Refusal :=
  s.withRegs [rs1, rs2, rd] <|
    let n := op (s.readReg rs1).toInt (s.readReg rs2).toInt
    if s.overflows n then .next ((s.advance 4).crash .arithmeticOverflow)
    else .next ((s.advance 4).writeReg rd (wrap32 n))

/-- Add (R91). -/
def execAdd (rs1 rs2 rd : Byte) (s : State) : Host.Outcome State Fault Refusal :=
  s.arith (fun a b => a + b) rs1 rs2 rd

/-- Sub (R92): source 1 minus source 2. -/
def execSub (rs1 rs2 rd : Byte) (s : State) : Host.Outcome State Fault Refusal :=
  s.arith (fun a b => a - b) rs1 rs2 rd

/-- Mul (R93): the low 32 bits of the exact product. -/
def execMul (rs1 rs2 rd : Byte) (s : State) : Host.Outcome State Fault Refusal :=
  s.arith (fun a b => a * b) rs1 rs2 rd

/-- Div (R94): the quotient rounded toward zero into the destination, the remainder into `rem`. A zero divisor
is Crash 4; the one overflowing quotient, -2^31 by -1, follows the overflow policy (D7). -/
def execDiv (rs1 rs2 rd : Byte) (s : State) : Host.Outcome State Fault Refusal :=
  s.withRegs [rs1, rs2, rd] <|
    let a := (s.readReg rs1).toInt
    let b := (s.readReg rs2).toInt
    if b = 0 then .next ((s.advance 4).crash .divisionByZero)
    else if s.overflows (a.tdiv b) then .next ((s.advance 4).crash .arithmeticOverflow)
    else .next (((s.advance 4).writeReg rd (wrap32 (a.tdiv b))).setRem (wrap32 (a.tmod b)))

end Sys2Proof.Machine
end

