-- ==== Sys2Proof/Machine/Compare.lean ====
section
/-! DEFINITION. The six comparisons (44_comparison.md). The filler byte is consumed and its value ignored
(30_encoding.md R62), so no meaning takes it. -/

namespace Sys2Proof.Machine

/-- The common rule of the comparisons (R96): read both registers, set the flag to the relation. -/
def State.compare (s : State) (r : Relation) (ra rb : Byte) : Host.Outcome State Fault Refusal :=
  s.withRegs [ra, rb] (.next ((s.advance 4).setFlag (r.holds (s.readReg ra) (s.readReg rb))))

/-- Eq (R97). -/
def execEq (ra rb : Byte) (s : State) : Host.Outcome State Fault Refusal := s.compare .eq ra rb

/-- Neq (R98). -/
def execNeq (ra rb : Byte) (s : State) : Host.Outcome State Fault Refusal := s.compare .neq ra rb

/-- Gt (R99). -/
def execGt (ra rb : Byte) (s : State) : Host.Outcome State Fault Refusal := s.compare .gt ra rb

/-- Gte (R100). -/
def execGte (ra rb : Byte) (s : State) : Host.Outcome State Fault Refusal := s.compare .gte ra rb

/-- Lt (R101). -/
def execLt (ra rb : Byte) (s : State) : Host.Outcome State Fault Refusal := s.compare .lt ra rb

/-- Lte (R102). -/
def execLte (ra rb : Byte) (s : State) : Host.Outcome State Fault Refusal := s.compare .lte ra rb

end Sys2Proof.Machine
end

