-- ==== Sys2Proof/Machine/Control.lean ====
section
/-! DEFINITION. Halt and Illegal: the two instructions of one byte, each of which ends the run. -/

namespace Sys2Proof.Machine

/-- Halt (41_halt.md R88): GracefulStop 0, with `pc` just past the opcode byte. -/
def execHalt (s : State) : Host.Outcome State Fault Refusal :=
  .next ((s.advance 1).stop .gracefulHalt)

/-- Illegal (40_run_loop.md R78): Crash 3, with `pc` just past the opcode byte, whichever byte it was. -/
def execIllegal (_op : Byte) (s : State) : Host.Outcome State Fault Refusal :=
  .next ((s.advance 1).crash .unknownOpcode)

end Sys2Proof.Machine
end

