-- ==== Sys2Proof/Machine/Jumps.lean ====
section
/-! DEFINITION. The three jumps (45_jumps.md). The opcode stands at `s.pc`; one operand byte is consumed, so a
relative jump starts from `s.pc + 2` (R103, D11). -/

namespace Sys2Proof.Machine

/-- The common rule of the jumps (R103): `V` is the signed register value, and `pc` becomes the exact target
reduced modulo 2^32. The target is not checked against `L` here. -/
def State.jump (s : State) (target : Int → Int) (rr : Byte) : Host.Outcome State Fault Refusal :=
  s.withRegs [rr] (.next (s.setPc (wrap32 (target (s.readReg rr).toInt))))

/-- Jmp (R104): the absolute offset `V`. -/
def execJmp (rr : Byte) (s : State) : Host.Outcome State Fault Refusal :=
  s.jump (fun v => v) rr

/-- JmpForward (R105): `V` past the offset after the operand byte. -/
def execJmpForward (rr : Byte) (s : State) : Host.Outcome State Fault Refusal :=
  s.jump (fun v => ((s.advance 2).pc.toNat : Int) + v) rr

/-- JmpBackward (R106): `V` before the offset after the operand byte. -/
def execJmpBackward (rr : Byte) (s : State) : Host.Outcome State Fault Refusal :=
  s.jump (fun v => ((s.advance 2).pc.toNat : Int) - v) rr

end Sys2Proof.Machine
end

