-- ==== Sys2Proof/Machine/LoadImm.lean ====
section
/-! DEFINITION. Load, the one data-transfer instruction: a load of an immediate (42_load.md). -/

namespace Sys2Proof.Machine

/-- Load (R89). -/
def execLoad (rd : Byte) (imm : Imm16) (s : State) : Host.Outcome State Fault Refusal :=
  s.withRegs [rd] (.next ((s.advance 4).writeReg rd (s.loadValue imm)))

end Sys2Proof.Machine
end

