-- ==== Sys2Proof/Machine/Dispatch.lean ====
section
/-! DEFINITION. Dispatch (40_run_loop.md R77): the meaning of each instruction, in a state whose `pc` is the
offset of its opcode byte. -/

namespace Sys2Proof.Machine

def exec (i : Instr) (s : State) : Host.Outcome State Fault Refusal :=
  match i with
  | .halt => Sys2Proof.Machine.execHalt s
  | .load rd imm => Sys2Proof.Machine.execLoad rd imm s
  | .add rs1 rs2 rd => Sys2Proof.Machine.execAdd rs1 rs2 rd s
  | .sub rs1 rs2 rd => Sys2Proof.Machine.execSub rs1 rs2 rd s
  | .mul rs1 rs2 rd => Sys2Proof.Machine.execMul rs1 rs2 rd s
  | .div rs1 rs2 rd => Sys2Proof.Machine.execDiv rs1 rs2 rd s
  | .eq ra rb _ => Sys2Proof.Machine.execEq ra rb s
  | .neq ra rb _ => Sys2Proof.Machine.execNeq ra rb s
  | .jmp rr => Sys2Proof.Machine.execJmp rr s
  | .jmpForward rr => Sys2Proof.Machine.execJmpForward rr s
  | .jmpBackward rr => Sys2Proof.Machine.execJmpBackward rr s
  | .gt ra rb _ => Sys2Proof.Machine.execGt ra rb s
  | .gte ra rb _ => Sys2Proof.Machine.execGte ra rb s
  | .lt ra rb _ => Sys2Proof.Machine.execLt ra rb s
  | .lte ra rb _ => Sys2Proof.Machine.execLte ra rb s
  | .illegal op => Sys2Proof.Machine.execIllegal op s

end Sys2Proof.Machine
end

