-- ==== Sys2Proof/Machine/RunLoop.lean ====
section
/-! DEFINITION. The start of a run with its header check, and one iteration of the run loop (40_run_loop.md). -/

namespace Sys2Proof.Machine

/-- Run (R71 to R73): the Start event, then the header check. A buffer shorter than 4 bytes is Crash 2, tested
before any byte is read (D12); a wrong header is Crash 1; both leave `pc`. On success `pc` moves past the
header and the run loop begins. -/
def startRun (s : State) : State :=
  let s := s.emit .start Config.startReason
  if s.program.length < magic.length then s.crash .incompleteBytecode
  else if s.program.window 0 magic.length ≠ magic then s.crash .invalidHeader
  else (s.setPc entry).enter .running

/-- The outcome of decoding the bytes at `pc`. -/
def State.fetch (s : State) : Except DecodeError (Instr × List Byte) :=
  decode s.config.opcodeMap (s.program.window s.pc.toNat maxInstrBytes)

/-- One iteration (R75 to R82): the bounds check; then fetch and decode; an instruction some of whose operand
bytes lie past the end of the buffer is Crash 2, with `pc` just past its opcode byte and no effect (R80); any
other instruction, Illegal among them, has its meaning. -/
def iterate (s : State) : Host.Outcome State Fault Refusal :=
  if s.program.length ≤ s.pc.toNat then .next (s.stop .endOfProgram)
  else match s.fetch with
    | .error _ => .next ((s.advance 1).crash .incompleteBytecode)
    | .ok (i, _) => exec i s

end Sys2Proof.Machine
end

