-- ==== Sys2Proof/Machine/Step.lean ====
section
/-! DEFINITION. One architectural step (40_run_loop.md R74). -/

namespace Sys2Proof.Machine

/-- From NotStarted the step is Run itself (R71 to R73); in Running it is one iteration of the run loop (R75 to
R82); in a terminal run state no step is defined (R85). -/
def step (s : State) : Host.Outcome State Fault Refusal :=
  match s.runState with
  | .notStarted => .next (startRun s)
  | .running => iterate s
  | .haltedOk => .fault .runOver
  | .endOfProgram => .fault .runOver
  | .crashed => .fault .runOver

/-- The state whose next step runs the instruction with the bits `w`: a buffer of the header and that
instruction is loaded, the header check is past, and `pc` is at the entry (R45, R73). Nothing else changes. -/
def State.withFetchWord (s : State) (nbits w : Nat) : State :=
  { s with
    program := Memory.ofBytes (magic ++ wordBytes nbits w)
    pc := entry
    runState := .running }

end Sys2Proof.Machine
end

