-- ==== Sys2Proof/Machine/HostInterface.lean ====
section
/-! DEFINITION. The host's operations on a constructed engine (10_state.md R33, 70_reset_and_hazards.md R128 to
R132). Construct is `State.construct`. The host makes no other move. -/

namespace Sys2Proof.Machine

/-- Load program (R128): sets the buffer and nothing else, only in NotStarted and only for a buffer of at most
2^31 bytes. -/
def hostLoad (bytes : List Byte) (s : State) : Host.Outcome State Fault Refusal :=
  if s.runState ≠ .notStarted then .refused .loadOutsideNotStarted
  else if maxProgramLength < bytes.length then .refused .programTooLong
  else .next { s with program := Memory.ofBytes bytes }

/-- Run (40_run_loop.md R71), its first step: only in NotStarted, so once for each engine (R132). The later
steps of the run are those of `step`. -/
def hostRun (s : State) : Host.Outcome State Fault Refusal :=
  match s.runState with
  | .notStarted => .next (startRun s)
  | .running => .refused .runOutsideNotStarted
  | .haltedOk => .refused .runOutsideNotStarted
  | .endOfProgram => .refused .runOutsideNotStarted
  | .crashed => .refused .runOutsideNotStarted

/-- What the host reads of an engine (10_state.md R33): `pc` is not part of it (60_exceptions.md R109). -/
structure View where
  x : Vector Word 32
  f : Vector FpPattern 32
  rem : Word
  flag : Bool
  events : List Event
  deriving DecidableEq, Repr

/-- Read state (R33, R130): valid once the run has ended. -/
def hostView (s : State) : Host.Outcome View Fault Refusal :=
  if s.runState.isTerminal then
    .next { x := s.x, f := s.f, rem := s.rem, flag := s.flag, events := s.events }
  else .refused .viewBeforeEnd

end Sys2Proof.Machine
end

