-- ==== Sys2Proof/Safety.lean ====
section
/-! DEFINITION. The terms in which claims about the engine are made: the shape of the event log, the invariant of
a constructed engine, which operands an instruction may name, and equality up to what the host draws. -/

namespace Sys2Proof.Machine

/-- The tags and reason codes of the event log: what a run's result is, up to timestamps and identity
(40_run_loop.md R84). -/
def State.logShape (s : State) : List (EventTag × Nat) := s.events.map fun e => (e.tag, e.reason)

/-- The Start event, whose reason code is OPEN (60_exceptions.md R111). -/
def startShape : EventTag × Nat := (.start, Config.startReason)

/-- The event log is the one the run state calls for (60_exceptions.md R113): none before the run, Start alone
during it, Start and one terminal event after it, with the reason codes of R109. Crash 4 is
the spec's D6 (log 5); Crash 5 needs the crash policy (the spec's D4 and D7, log 4). -/
def State.LogFits (s : State) : Prop :=
  match s.runState with
  | .notStarted => s.logShape = []
  | .running => s.logShape = [startShape]
  | .haltedOk => s.logShape = [startShape, (.gracefulStop, 0)]
  | .endOfProgram => s.logShape = [startShape, (.gracefulStop, 1)]
  | .crashed => ∃ r : CrashReason, s.logShape = [startShape, (.crash, r.code)] ∧
      (r = .arithmeticOverflow → s.config.overflowPolicy = .crash)

/-- The run has passed the header check and has not crashed (10_state.md R32). -/
def RunState.pastHeader : RunState → Bool
  | .notStarted => false
  | .running => true
  | .haltedOk => true
  | .endOfProgram => true
  | .crashed => false

/-- What every state of a constructed engine satisfies. A clause that rests on a choice names its log entry. -/
structure State.Inv (s : State) : Prop where
  /-- The buffer has its canonical form (the model's representation, log 11). -/
  programCanonical : s.program.wf
  /-- `L <= MAX_PROGRAM_LEN` (20_memory.md R37; the bound 2^31 is the spec's D10, log 18). -/
  programFits : s.program.length ≤ maxProgramLength
  /-- The opcode map names each operation once (30_encoding.md R53). -/
  configLegal : s.config.WellFormed
  /-- The floating-point file keeps its construction value (10_state.md R24; the spec's D2 and D16, log 2 and
  log 19). -/
  fpZero : s.f = Vector.replicate 32 0
  /-- The event log fits the run state (R113). -/
  logFits : s.LogFits
  /-- Every event carries the engine's identity (60_exceptions.md R120). -/
  stamped : ∀ e ∈ s.events, e.identity = s.identity
  /-- Only a program with the magic header gets past the header check (40_run_loop.md R72, R73). -/
  headerSeen : s.runState.pastHeader = true → s.program.window 0 magic.length = magic
  /-- Before the run, everything an instruction can write holds its construction value (70_reset_and_hazards.md
  R126, R128; the values of `pc`, the flag and `rem` are the spec's D16, log 19). -/
  fresh : s.runState = .notStarted →
    s.pc = 0 ∧ s.x = Vector.replicate 32 0 ∧ s.rem = 0 ∧ s.flag = false

/-- None of these register operand bytes is refused under the engine's parameters (10_state.md R25): always so
with the default `FP_BANK_REACHABLE = false`. -/
def State.RegsUsable (s : State) (regs : List Byte) : Prop :=
  s.config.fpBankReachable = true → ∀ b ∈ regs, b.toNat < 32 ∨ 63 < b.toNat

/-- An exact result is given its wrapped value: it is in range, or the policy is wrap (43_arithmetic.md R90). -/
def State.ResultKept (s : State) (n : Int) : Prop :=
  s.config.overflowPolicy = .wrap ∨ (-2 ^ 31 ≤ n ∧ n < 2 ^ 31)

/-- An event without what the host draws for it (60_exceptions.md R120). -/
def Event.erase (e : Event) : Event := { e with timestamp := 0, identity := 0 }

/-- A state without what no instruction reads and the host or the construction supplies: timestamps, identity,
the parallel-units count, heap and stack (10_state.md R35, 20_memory.md R39). -/
def State.erase (s : State) : State :=
  { s with
    events := s.events.map Event.erase
    heap := []
    stack := []
    identity := 0
    parallelUnits := 0
    clockDraws := 0 }

/-- An outcome with its next state erased. -/
def eraseOutcome : Host.Outcome State Fault Refusal → Host.Outcome State Fault Refusal
  | .next s => .next s.erase
  | .fault r => .fault r
  | .refused r => .refused r

/-- A number of steps of the engine, stopping where no step is defined or an instruction is refused. -/
def runSteps : Nat → State → Host.Outcome State Fault Refusal
  | 0, s => .next s
  | k + 1, s =>
    match step s with
    | .next t => runSteps k t
    | .fault r => .fault r
    | .refused r => .refused r

end Sys2Proof.Machine
end

