-- ==== Sys2Proof/Certificates/Slice0/Obligations.lean ====
section
/-! DEFINITION. The statements about the engine. Each docstring names the rule of spec/ it rests on; where a
clause rests on a decision the spec marks as its own (D<n> of 92_eei_decisions.md) or on a choice or inference of
the model it says so, with the log entry. In a frame, `clockDraws` is the model's own counter (log 7), no state of
the spec's. -/

open Sys2Proof Sys2Proof.Machine

/-! ## Decoder and encoder -/

/-- Under every legal opcode map, decoding an encoded well-formed instruction gives it back, every operand byte
included, and leaves the bytes after it (30_encoding.md R56, R58; which byte names which operation is D1, log 1,
and no clause depends on it). That the filler of a comparison and the byte of Illegal are given back is the model's
choice: its syntax keeps them (DEDUCED, log 23 and log 13). -/
def Obligations.DecodeOfEncodeIsIdentity : Prop :=
  ∀ m : List Tag, OpcodeMapWF m → ∀ i : Instr, i.wellFormed = true → ∀ rest : List Byte,
    decode m (encode m i ++ rest) = .ok (i, rest)

/-- Under every legal opcode map, what decodes is well-formed and encodes back to the bytes it was read from
(30_encoding.md, section 3). That no byte is lost is the model's choice, not the spec's: its syntax keeps the filler
of a comparison, whose value the engine ignores (R62; DEDUCED, log 23), and the byte of Illegal, which the spec's
tag does not hold (R52; DEDUCED, log 13). -/
def Obligations.EncodeOfDecodeIsIdentity : Prop :=
  ∀ m : List Tag, OpcodeMapWF m → ∀ (bytes rest : List Byte) (i : Instr),
    decode m bytes = .ok (i, rest) → i.wellFormed = true ∧ encode m i ++ rest = bytes

/-- Words written out from the spec's syntax table (30_encoding.md R70) and its vectors decode to their
instructions under the default opcode map (D1, log 1). That the filler and the byte of Illegal are operands of the
syntax is the model's choice (DEDUCED, log 23 and log 13). -/
def Obligations.SpecWordsDecode : Prop :=
  decode standardOpcodeMap [0x01, 0x01, 0x00, 0x10, 0x08, 0x01, 0x00, 0x00]
      = .ok (.load 1 16, [0x08, 0x01, 0x00, 0x00]) ∧
    decode standardOpcodeMap [0x02, 0x00, 0x01, 0x02] = .ok (.add 0 1 2, []) ∧
    decode standardOpcodeMap [0x0D, 0x00, 0x01, 0x00] = .ok (.lt 0 1 0, []) ∧
    decode standardOpcodeMap [0x08, 0x01, 0x00, 0x00] = .ok (.jmp 1, [0x00, 0x00]) ∧
    decode standardOpcodeMap [0x00, 0x00] = .ok (.halt, [0x00]) ∧
    decode standardOpcodeMap [0xFE] = .ok (.illegal 0xFE, []) ∧
    decode standardOpcodeMap [0x05, 0x00, 0x01] = .error (.truncated .div)

/-- The length of an instruction is a function of its tag alone, with the values of 30_encoding.md R55, and the
decoder consumes exactly that many bytes. -/
def Obligations.LengthIsAFunctionOfTheTag : Prop :=
  (∀ (m : List Tag) (bytes rest : List Byte) (i : Instr), decode m bytes = .ok (i, rest) →
    bytes.length = i.tag.length + rest.length ∧
      bytes.head?.map (decodeTag m) = some i.tag) ∧
    Tag.length .halt = 1 ∧ Tag.length .load = 4 ∧
    (∀ t ∈ [Tag.add, .sub, .mul, .div], t.length = 4) ∧
    (∀ t ∈ [Tag.eq, .neq, .gt, .gte, .lt, .lte], t.length = 4) ∧
    (∀ t ∈ [Tag.jmp, .jmpForward, .jmpBackward], t.length = 2) ∧
    Tag.length .illegal = 1

/-- Every byte 15 to 255 decodes to Illegal and no other byte does; the header bytes are such bytes; a fetched
one ends the run with Crash 3 (30_encoding.md R54). Which operation a byte below 15 names is not used. -/
def Obligations.BytesFromFifteenAreIllegal : Prop :=
  (∀ m : List Tag, OpcodeMapWF m →
    (∀ op : Byte, decodeTag m op = .illegal ↔ 15 ≤ op.toNat) ∧ ∀ op ∈ magic, decodeTag m op = .illegal) ∧
    ∀ (s : State) (op : Byte), s.config.WellFormed → s.runState = .running →
      s.program.read s.pc.toNat = some op → 15 ≤ op.toNat →
      ∃ t, step s = .next t ∧ t.runState = .crashed ∧ t.logShape = s.logShape ++ [(.crash, 3)]

/-! ## The program buffer and the registers -/

/-- No byte is read at or beyond `L`, every offset below it has one, and a window stops there
(20_memory.md R44; the representation of the buffer is the model's, log 11). -/
def Obligations.NoReadBeyondTheBuffer : Prop :=
  ∀ (m : Memory) (a n : Nat),
    (m.read a = none ↔ m.length ≤ a) ∧ (m.window a n).length = min n (m.length - a)

/-- Two canonical buffers of one length that read the same at every offset are the same data, and loading a list
of bytes gives a canonical buffer that reads them (20_memory.md R37; the representation is the model's, log 11). -/
def Obligations.CanonicalBuffersAreEqual : Prop :=
  (∀ m n : Memory, m.wf → n.wf → m.length = n.length → (∀ a, m.read a = n.read a) → m = n) ∧
    ∀ bytes : List Byte, (Memory.ofBytes bytes).wf ∧ ∀ k, (Memory.ofBytes bytes).read k = bytes[k]?

/-- `ReadReg` and `WriteReg` (10_state.md, section 1): a write is read back at its own index and nowhere else; an
index above 31 reads 0 and discards writes. That 32 to 63 are such indices is the spec's D2 (log 2). -/
def Obligations.RegisterReadAfterWrite : Prop :=
  ∀ (s : State) (b c : Byte) (v : Word),
    ((s.writeReg b v).readReg c = if c = b ∧ b.toNat ≤ 31 then v else s.readReg c) ∧
      (31 < b.toNat → s.readReg b = 0 ∧ s.writeReg b v = s)

/-! ## Construction, loading, and the other host operations -/

/-- What Construct leaves (70_reset_and_hazards.md, section 1). The values of the flag, the remainder, `pc` and
the floating-point file are the spec's D16 (log 19); identity, unit count and parameters as arguments of Construct
are the model's choice (log 8, log 10). -/
def Obligations.ConstructedState : Prop :=
  ∀ (identity units : Nat) (c : Config), ∀ s, s = State.construct identity units c →
    (∀ b, s.readReg b = 0) ∧ s.f = Vector.replicate 32 0 ∧ s.rem = 0 ∧ s.flag = false ∧ s.pc = 0 ∧
      s.runState = .notStarted ∧ s.events = [] ∧ s.program.length = 0 ∧ (∀ a, s.program.read a = none) ∧
      s.identity = identity ∧ s.parallelUnits = units ∧ s.config = c

/-- A constructed engine has the invariant, the one after reset among them (70_reset_and_hazards.md, section 1).
Clauses of the invariant that are choices: the construction values of `pc`, flag, `rem` and `f` (the spec's D16,
log 19), the bound 2^31 on `L` (the spec's D10, log 18), the opcode map that reset takes (the spec's D1, log 1) and
the canonical form of the buffer (the model's, log 11). -/
def Obligations.ConstructedStateHasInvariant : Prop :=
  (∀ (identity units : Nat) (c : Config), c.WellFormed → (State.construct identity units c).Inv) ∧
    State.reset.Inv

/-- Load program stores the bytes, changes nothing else, and keeps the invariant
(70_reset_and_hazards.md, section 2). Of what is kept, the canonical form of the buffer is the model's choice
(log 11) and the bound 2^31 on `L` the spec's D10 (log 18). -/
def Obligations.LoadKeepsInvariant : Prop :=
  ∀ (s t : State) (bytes : List Byte), hostLoad bytes s = .next t →
    t.program.length = bytes.length ∧ (∀ k, t.program.read k = bytes[k]?) ∧
      t = { s with program := t.program } ∧ (s.Inv → t.Inv)

/-- When Load program, Run and Read state are accepted, and the name under which each is refused otherwise. The
bound 2^31 is the spec's D10, the refusals of Load program and Run its D22 (log 18, log 20); that an early view is
refused is the model's inference (10_state.md R33; DEDUCED, log 20). -/
def Obligations.HostOperationsAnswer : Prop :=
  ∀ (s : State) (bytes : List Byte),
    (s.runState = .notStarted → bytes.length ≤ 2 ^ 31 → ∃ t, hostLoad bytes s = .next t) ∧
    (s.runState = .notStarted → 2 ^ 31 < bytes.length → hostLoad bytes s = .refused .programTooLong) ∧
    (s.runState ≠ .notStarted → hostLoad bytes s = .refused .loadOutsideNotStarted) ∧
    (s.runState = .notStarted → hostRun s = step s ∧ ∃ t, hostRun s = .next t) ∧
    (s.runState ≠ .notStarted → hostRun s = .refused .runOutsideNotStarted) ∧
    (s.runState ∈ [RunState.haltedOk, .endOfProgram, .crashed] → ∃ v, hostView s = .next v ∧
      v.x = s.x ∧ v.f = s.f ∧ v.rem = s.rem ∧ v.flag = s.flag ∧ v.events = s.events) ∧
    (s.runState ∈ [RunState.notStarted, .running] → hostView s = .refused .viewBeforeEnd)

/-! ## The start of a run -/

/-- A program with the magic header is accepted: Start is emitted, `pc` becomes 4, the run state becomes Running,
nothing else changes; a program of the 4 header bytes alone then ends with GracefulStop 1; and Running is entered
in no other way (40_run_loop.md, sections 1 and 2: R71, R73, R75). The reason code of Start is the spec's OPEN D15,
held as an opaque constant, a free value (DESIGN CHOICE, log 6). -/
def Obligations.HeaderAccepted : Prop :=
  (∀ s : State, s.runState = .notStarted →
    s.program.read 0 = some 78 → s.program.read 1 = some 83 →
    s.program.read 2 = some 75 → s.program.read 3 = some 79 →
    ∃ t, step s = .next t ∧ t.runState = .running ∧ t.pc = 4 ∧ t.logShape = s.logShape ++ [startShape] ∧
      t = { s with runState := t.runState, pc := t.pc, events := t.events, clockDraws := t.clockDraws } ∧
      (s.program.length = 4 → ∃ u, step t = .next u ∧ u.runState = .endOfProgram ∧
        u.logShape = t.logShape ++ [(.gracefulStop, 1)])) ∧
    ∀ s t : State, step s = .next t → s.runState ≠ .running → t.runState = .running →
      s.runState = .notStarted ∧ s.program.read 0 = some 78 ∧ s.program.read 1 = some 83 ∧
        s.program.read 2 = some 75 ∧ s.program.read 3 = some 79

/-- A program that fails the header check crashes after Start and before any instruction, with `pc` and every
register as they were: reason 2 if it is shorter than 4 bytes, else reason 1 (40_run_loop.md, section 1; the
reason for a short buffer is the spec's D12, log 16; the reason of Start is the spec's OPEN D15, an opaque constant,
log 6). -/
def Obligations.HeaderRejected : Prop :=
  ∀ s : State, s.runState = .notStarted →
    (s.program.length < 4 → ∃ t, step s = .next t ∧ t.runState = .crashed ∧
      t.logShape = s.logShape ++ [startShape, (.crash, 2)] ∧
      t = { s with runState := t.runState, events := t.events, clockDraws := t.clockDraws }) ∧
    (4 ≤ s.program.length →
      ¬ (s.program.read 0 = some 78 ∧ s.program.read 1 = some 83 ∧
        s.program.read 2 = some 75 ∧ s.program.read 3 = some 79) →
      ∃ t, step s = .next t ∧ t.runState = .crashed ∧
        t.logShape = s.logShape ++ [startShape, (.crash, 1)] ∧
        t = { s with runState := t.runState, events := t.events, clockDraws := t.clockDraws })

/-! ## The run loop -/

/-- When the bytes at `pc` decode to an instruction, the step is that instruction's meaning and adds nothing
around it (40_run_loop.md R76, R77). -/
def Obligations.StepRunsDecodedInstruction : Prop :=
  ∀ (s : State) (i : Instr) (rest : List Byte), s.runState = .running →
    s.pc.toNat < s.program.length → s.fetch = .ok (i, rest) → step s = exec i s

/-- When the bytes of the buffer from `pc` on are the encoding of a well-formed instruction, whatever bytes follow
it, the step is that instruction's meaning (40_run_loop.md R76 to R79). -/
def Obligations.StepRunsEncodedBytes : Prop :=
  ∀ (s : State) (i : Instr), s.config.WellFormed → s.runState = .running → i.wellFormed = true →
    (∀ k, k < (encode s.config.opcodeMap i).length →
      s.program.read (s.pc.toNat + k) = (encode s.config.opcodeMap i)[k]?) →
    step s = exec i s

/-- The bounds check: with `pc` at or past the end of the buffer the run ends with GracefulStop 1 and nothing else
changes, `pc` included; and a running engine ends so in no other case (40_run_loop.md R75). -/
def Obligations.PcPastTheEndStops : Prop :=
  ∀ s : State, s.runState = .running →
    (s.program.length ≤ s.pc.toNat → ∃ t, step s = .next t ∧ t.runState = .endOfProgram ∧
      t.logShape = s.logShape ++ [(.gracefulStop, 1)] ∧
      t = { s with runState := t.runState, events := t.events, clockDraws := t.clockDraws }) ∧
    (∀ t, step s = .next t → t.runState = .endOfProgram → s.program.length ≤ s.pc.toNat)

/-- A fetched Illegal byte is Crash 3 with `pc` one past it, whatever bytes follow, and nothing else changes
(40_run_loop.md R78). -/
def Obligations.IllegalByteCrashes : Prop :=
  ∀ (s : State) (op : Byte), s.runState = .running → s.program.read s.pc.toNat = some op →
    decodeTag s.config.opcodeMap op = .illegal →
    ∃ t, step s = .next t ∧ t.runState = .crashed ∧ t.pc = s.pc + 1 ∧
      t.logShape = s.logShape ++ [(.crash, 3)] ∧
      t = { s with pc := t.pc, runState := t.runState, events := t.events, clockDraws := t.clockDraws }

/-- An instruction some of whose operand bytes lie past the end of the buffer is Crash 2, with `pc` one past its
opcode byte and no effect, whatever its operands would have been (40_run_loop.md, section 2; the spec's D13 and
D14, log 17). -/
def Obligations.TruncatedInstructionCrashes : Prop :=
  ∀ (s : State) (op : Byte), s.runState = .running → s.program.read s.pc.toNat = some op →
    decodeTag s.config.opcodeMap op ≠ .illegal →
    s.program.length < s.pc.toNat + (decodeTag s.config.opcodeMap op).length →
    ∃ t, step s = .next t ∧ t.runState = .crashed ∧ t.pc = s.pc + 1 ∧
      t.logShape = s.logShape ++ [(.crash, 2)] ∧
      t = { s with pc := t.pc, runState := t.runState, events := t.events, clockDraws := t.clockDraws }

/-- An instruction that is fetched whole lies below `L`, so moving past it does not wrap `pc`
(10_state.md, section 3; the 32-bit width and the bound on `L` are the spec's D9 and D10, log 18). -/
def Obligations.SequentialAdvanceDoesNotWrap : Prop :=
  ∀ (s : State) (i : Instr) (rest : List Byte), s.Inv → s.pc.toNat < s.program.length →
    s.fetch = .ok (i, rest) →
    s.pc.toNat + i.tag.length ≤ s.program.length ∧
      (s.advance i.tag.length).pc.toNat = s.pc.toNat + i.tag.length

/-! ## The machine as a whole -/

/-- Every step keeps the invariant: the buffer stays canonical and within its bound, the floating-point file keeps
its construction value, the event log fits the run state, and only a program with the magic header runs
(10_state.md, section 8; 40_run_loop.md, section 3; 60_exceptions.md, section 2). Clauses of the invariant that are
choices: the canonical form of the buffer (the model's, log 11), the bound 2^31 on `L` (the spec's D10, log 18),
that nothing writes the floating-point file (the spec's D2, log 2), the construction values of `pc`, flag, `rem`
and `f` (the spec's D16, log 19), the crash reason 4 (the spec's D6, log 5), and the crash reason 5, under the
crash policy alone (the spec's D4 and D7, log 4). The reason of Start is a free value (the spec's D15, log 6). -/
def Obligations.StepKeepsInvariant : Prop :=
  ∀ s t : State, s.Inv → step s = .next t → t.Inv

/-- The run of a loaded program emits Start alone while it goes on and returns nothing to the host; once it has
ended its events are exactly Start and one terminal event, the final values are readable, and no step is
defined; every event carries the engine's identity (60_exceptions.md R113, 40_run_loop.md R85). That the view is
refused before the end is the model's inference (10_state.md R33; DEDUCED, log 20), and so is the fault that stands
for 'no step is defined' (R85; DEDUCED, log 14); the reason of Start is a free value (the spec's D15, log 6). -/
def Obligations.RunEmitsStartThenOneTerminalEvent : Prop :=
  ∀ (identity units : Nat) (c : Config) (bytes : List Byte) (s t : State) (k : Nat), c.WellFormed →
    hostLoad bytes (State.construct identity units c) = .next s → runSteps (k + 1) s = .next t →
    (∀ e ∈ t.events, e.identity = identity) ∧
    ((t.runState = .running ∧ t.logShape = [startShape] ∧ hostView t = .refused .viewBeforeEnd) ∨
      (t.runState.isTerminal = true ∧ step t = .fault .runOver ∧
        (∃ tag reason, tag ≠ EventTag.start ∧ t.logShape = [startShape, (tag, reason)]) ∧
        ∃ v, hostView t = .next v ∧ v.x = t.x ∧ v.f = t.f ∧ v.rem = t.rem ∧ v.flag = t.flag ∧
          v.events = t.events))

/-- No step is defined from a terminal state, and the host may neither load nor run it again
(60_exceptions.md R117 and 70_reset_and_hazards.md, section 3; the refusals are the spec's D22, log 20; that the
missing step is a fault is the model's inference, DEDUCED, log 14). -/
def Obligations.TerminalStateIsFinal : Prop :=
  ∀ (s : State) (bytes : List Byte), s.runState ∈ [RunState.haltedOk, .endOfProgram, .crashed] →
    step s = .fault .runOver ∧ hostLoad bytes s = .refused .loadOutsideNotStarted ∧
      hostRun s = .refused .runOutsideNotStarted

/-- An engine built with the default `FP_BANK_REACHABLE` that has not reached a terminal state always has a next
state; and whatever the parameters, a step stops only in a terminal state or with the refusal of
10_state.md R25 (60_exceptions.md, section 1: every failure is an event). The default is the spec's D2 (log 2); that
the missing step of a terminal state is a fault is the model's inference (DEDUCED, log 14). -/
def Obligations.EngineAlwaysStepsUntilTheEnd : Prop :=
  ∀ s : State,
    (s.config.fpBankReachable = false → s.runState.isTerminal = false → ∃ t, step s = .next t) ∧
    (∀ r, step s = .fault r → s.runState.isTerminal = true) ∧
    (∀ r, step s = .refused r → r = .fpBankSemantics ∧ s.config.fpBankReachable = true ∧
      s.runState = .running)

/-- The event log is empty at construction and append-only; a step of a running engine appends nothing if the
engine goes on and one event if it ends the run (10_state.md R34). -/
def Obligations.EventsAreAppendOnly : Prop :=
  (∀ (identity units : Nat) (c : Config), (State.construct identity units c).events = []) ∧
    ∀ s t : State, step s = .next t → ∃ new, t.events = s.events ++ new ∧
      (s.runState = .running → t.runState = .running → new = []) ∧
      (s.runState = .running → t.runState.isTerminal = true → new.length = 1) ∧
      (s.runState = .notStarted → ∃ e l, new = e :: l ∧ e.tag = .start ∧
        (t.runState = .running → l = []) ∧ (t.runState.isTerminal = true → l.length = 1))

/-- No step changes the program buffer, the floating-point file, heap, stack, identity, parallel-units count or
parameters (20_memory.md, section 1, and 10_state.md, sections 2 and 7; that the floating-point file is out of
reach is the spec's D2, log 2; heap and stack as fields and the parameters in State are the model's choice, log 9
and log 10). -/
def Obligations.StepKeepsWhatConstructionFixed : Prop :=
  ∀ s t : State, step s = .next t →
    t.program = s.program ∧ t.f = s.f ∧ t.heap = s.heap ∧ t.stack = s.stack ∧ t.identity = s.identity ∧
      t.parallelUnits = s.parallelUnits ∧ t.config = s.config

/-- Only Load, Add, Sub, Mul and Div write an integer register, only Div the remainder, only the comparisons the
flag (10_state.md, sections 1, 4 and 5). -/
def Obligations.WritersOfEachRegister : Prop :=
  ∀ (i : Instr) (s t : State), exec i s = .next t →
    (t.x ≠ s.x → i.tag ∈ [Tag.load, .add, .sub, .mul, .div]) ∧
    (t.rem ≠ s.rem → i.tag = .div) ∧
    (t.flag ≠ s.flag → i.tag ∈ [Tag.eq, .neq, .gt, .gte, .lt, .lte])

/-- A step that crashes a running engine writes no register, flag or remainder: it changes `pc`, the run state and
the event log alone (60_exceptions.md R116). -/
def Obligations.CrashIsPrecise : Prop :=
  ∀ s t : State, s.runState = .running → step s = .next t → t.runState = .crashed →
    t = { s with pc := t.pc, runState := t.runState, events := t.events, clockDraws := t.clockDraws }

/-- Timestamps, identity, parallel-units count, heap and stack do not influence a step: states equal up to them
step to outcomes equal up to them (60_exceptions.md, section 8; 10_state.md, section 7; 20_memory.md, section 1).
Timestamps drawn by the model's counter are log 7, identity and unit count log 8, heap and stack log 9. -/
def Obligations.HostDrawsDoNotInfluenceAStep : Prop :=
  ∀ s t : State, s.erase = t.erase → eraseOutcome (step s) = eraseOutcome (step t)

/-- Two engines with their own identities and parallel-units counts that run one program agree after every number
of steps up to what the host draws, and each stamps its events with its own identity (60_exceptions.md R122). That
engines are separate States, their identities not required to be distinct, is the model's inference (DEDUCED,
log 24); identity and unit count as arguments of Construct are log 8 (the spec's D19 and D25). -/
def Obligations.EnginesRunningOneProgramAgree : Prop :=
  ∀ (id₁ id₂ units₁ units₂ : Nat) (c : Config) (bytes : List Byte) (s₁ s₂ : State), c.WellFormed →
    hostLoad bytes (State.construct id₁ units₁ c) = .next s₁ →
    hostLoad bytes (State.construct id₂ units₂ c) = .next s₂ → ∀ k,
    eraseOutcome (runSteps k s₁) = eraseOutcome (runSteps k s₂) ∧
      (∀ t, runSteps k s₁ = .next t → ∀ e ∈ t.events, e.identity = id₁) ∧
      (∀ t, runSteps k s₂ = .next t → ∀ e ∈ t.events, e.identity = id₂)

/-- The termination primitives: each appends one event with its tag and reason code and sets the run state the
code calls for, no step follows, and no other state changes (`clockDraws` is the model's own counter, log 7); and a
step that ends a run is one of them after a move of `pc` alone (60_exceptions.md R112). The fault that stands for
'no step follows' is the model's inference (DEDUCED, log 14). -/
def Obligations.TerminationPrimitives : Prop :=
  (∀ s t : State,
    (t = s.stop .gracefulHalt ∨ t = s.stop .endOfProgram ∨ ∃ r, t = s.crash r) →
    step t = .fault .runOver ∧
      t = { s with runState := t.runState, events := t.events, clockDraws := t.clockDraws } ∧
      ∃ e, t.events = s.events ++ [e] ∧
        (t = s.stop .gracefulHalt → t.runState = .haltedOk ∧ e.tag = .gracefulStop ∧ e.reason = 0) ∧
        (t = s.stop .endOfProgram → t.runState = .endOfProgram ∧ e.tag = .gracefulStop ∧ e.reason = 1) ∧
        (∀ r, t = s.crash r → t.runState = .crashed ∧ e.tag = .crash ∧ e.reason = r.code)) ∧
    ∀ s t : State, s.runState = .running → step s = .next t → t.runState.isTerminal = true →
      ∃ pc, t = (s.setPc pc).stop .gracefulHalt ∨ t = (s.setPc pc).stop .endOfProgram ∨
        ∃ r, t = (s.setPc pc).crash r

/-- Every instruction whose operand indices are usable answers a next state, and one with an index in 32 to 63
under `FP_BANK_REACHABLE = true` is refused by name (10_state.md, section 2; the spec's D2, log 2). -/
def Obligations.FpIndicesAreRefusedOnlyWhenReachable : Prop :=
  ∀ (i : Instr) (s : State),
    (s.RegsUsable i.regs → ∃ t, exec i s = .next t) ∧
    (s.config.fpBankReachable = true → ∀ b ∈ i.regs, 32 ≤ b.toNat → b.toNat ≤ 63 →
      exec i s = .refused .fpBankSemantics)

/-! ## Instructions -/

/-- Halt completes in every state: GracefulStop 0, `pc` one on, nothing else changed; and a fetched Halt runs
whatever bytes follow it, or none (41_halt.md). -/
def Obligations.HaltStopsTheRun : Prop :=
  ∀ s : State,
    (∃ t, exec .halt s = .next t ∧ t.runState = .haltedOk ∧ t.pc = s.pc + 1 ∧
      t.logShape = s.logShape ++ [(.gracefulStop, 0)] ∧
      t = { s with pc := t.pc, runState := t.runState, events := t.events, clockDraws := t.clockDraws }) ∧
    (s.config.WellFormed → s.runState = .running →
      s.program.read s.pc.toNat = some (opcodeByte s.config.opcodeMap .halt) → step s = exec .halt s)

/-- Illegal completes in every state, whatever its byte: Crash 3, `pc` one on, nothing else changed; and a fetched
Illegal byte runs whatever bytes follow it, or none (40_run_loop.md, section 2; that the instruction carries its byte
is the model's choice, DEDUCED, log 13). -/
def Obligations.IllegalCrashesTheRun : Prop :=
  ∀ (op : Byte) (s : State),
    (∃ t, exec (.illegal op) s = .next t ∧ t.runState = .crashed ∧
      t.pc = s.pc + 1 ∧ t.logShape = s.logShape ++ [(.crash, 3)] ∧
      t = { s with pc := t.pc, runState := t.runState, events := t.events, clockDraws := t.clockDraws }) ∧
    (s.config.WellFormed → s.runState = .running → s.program.read s.pc.toNat = some op →
      15 ≤ op.toNat → step s = exec (.illegal op) s)

/-- Load completes: the destination, if its index is below 32, holds the immediate, unsigned by default and signed
under `LOAD_IMM_SIGNED` (the spec's D3, log 3); nothing else changes but `pc` (42_load.md; that 32 to 63 discard the
write by default is the spec's D2, log 2). -/
def Obligations.LoadWritesTheImmediate : Prop :=
  ∀ (s : State) (rd : Byte) (imm : Imm16), s.RegsUsable [rd] →
    ∃ t v, exec (.load rd imm) s = .next t ∧ t.pc = s.pc + 4 ∧
      (s.config.loadImmSigned = false → BitVec.toInt v = (imm.toNat : Int)) ∧
      (s.config.loadImmSigned = true → BitVec.toInt v = imm.toInt) ∧
      (∀ b, t.readReg b = if b = rd ∧ rd.toNat ≤ 31 then v else s.readReg b) ∧
      t = { s with pc := t.pc, x := t.x }

/-- Add completes unless its result ends the run under the crash policy: the destination, if its index is below
32, holds the sum modulo 2^32, which is the exact sum when that is in range; nothing else changes but `pc`
(43_arithmetic.md; wrapping is the spec's D4, log 4; that 32 to 63 read 0 and discard writes is its D2, log 2). -/
def Obligations.AddWritesTheSum : Prop :=
  ∀ (s : State) (rs1 rs2 rd : Byte), s.RegsUsable [rs1, rs2, rd] →
    s.ResultKept ((s.readReg rs1).toInt + (s.readReg rs2).toInt) →
    ∃ t, exec (.add rs1 rs2 rd) s = .next t ∧ t.pc = s.pc + 4 ∧
      (∀ b, t.readReg b = if b = rd ∧ rd.toNat ≤ 31 then s.readReg rs1 + s.readReg rs2 else s.readReg b) ∧
      (rd.toNat ≤ 31 → -2 ^ 31 ≤ (s.readReg rs1).toInt + (s.readReg rs2).toInt →
        (s.readReg rs1).toInt + (s.readReg rs2).toInt < 2 ^ 31 →
        (t.readReg rd).toInt = (s.readReg rs1).toInt + (s.readReg rs2).toInt) ∧
      t = { s with pc := t.pc, x := t.x }

/-- Sub completes likewise with source 1 minus source 2 (43_arithmetic.md; D4, log 4; D2, log 2). -/
def Obligations.SubWritesTheDifference : Prop :=
  ∀ (s : State) (rs1 rs2 rd : Byte), s.RegsUsable [rs1, rs2, rd] →
    s.ResultKept ((s.readReg rs1).toInt - (s.readReg rs2).toInt) →
    ∃ t, exec (.sub rs1 rs2 rd) s = .next t ∧ t.pc = s.pc + 4 ∧
      (∀ b, t.readReg b = if b = rd ∧ rd.toNat ≤ 31 then s.readReg rs1 - s.readReg rs2 else s.readReg b) ∧
      (rd.toNat ≤ 31 → -2 ^ 31 ≤ (s.readReg rs1).toInt - (s.readReg rs2).toInt →
        (s.readReg rs1).toInt - (s.readReg rs2).toInt < 2 ^ 31 →
        (t.readReg rd).toInt = (s.readReg rs1).toInt - (s.readReg rs2).toInt) ∧
      t = { s with pc := t.pc, x := t.x }

/-- Mul completes likewise with the low 32 bits of the product (43_arithmetic.md; D4, log 4; D2, log 2). -/
def Obligations.MulWritesTheLowProduct : Prop :=
  ∀ (s : State) (rs1 rs2 rd : Byte), s.RegsUsable [rs1, rs2, rd] →
    s.ResultKept ((s.readReg rs1).toInt * (s.readReg rs2).toInt) →
    ∃ t, exec (.mul rs1 rs2 rd) s = .next t ∧ t.pc = s.pc + 4 ∧
      (∀ b, t.readReg b = if b = rd ∧ rd.toNat ≤ 31 then s.readReg rs1 * s.readReg rs2 else s.readReg b) ∧
      (rd.toNat ≤ 31 → -2 ^ 31 ≤ (s.readReg rs1).toInt * (s.readReg rs2).toInt →
        (s.readReg rs1).toInt * (s.readReg rs2).toInt < 2 ^ 31 →
        (t.readReg rd).toInt = (s.readReg rs1).toInt * (s.readReg rs2).toInt) ∧
      t = { s with pc := t.pc, x := t.x }

/-- Div by a nonzero divisor completes unless -2^31 by -1 ends the run under the crash policy. With A and B the
signed sources, quotient q and remainder r satisfy A = B * q + r with |r| < |B| and r of A's sign or 0; the one
overflowing quotient wraps to -2^31 with r = 0. The quotient goes to the destination if its index is below 32, the
remainder to `rem` in every case (43_arithmetic.md; rounding and the corner are the spec's D5 and D7, log 5 and
log 4; the width of `rem` its D8, log 19; the indices 32 to 63 its D2, log 2). -/
def Obligations.DivWritesQuotientAndRemainder : Prop :=
  ∀ (s : State) (rs1 rs2 rd : Byte), s.RegsUsable [rs1, rs2, rd] → ∀ A B : Int,
    A = (s.readReg rs1).toInt → B = (s.readReg rs2).toInt → B ≠ 0 →
    (s.config.overflowPolicy = .wrap ∨ ¬ (A = -2 ^ 31 ∧ B = -1)) →
    ∃ t q r, exec (.div rs1 rs2 rd) s = .next t ∧ t.pc = s.pc + 4 ∧
      (∀ b, t.readReg b = if b = rd ∧ rd.toNat ≤ 31 then q else s.readReg b) ∧ t.rem = r ∧
      (¬ (A = -2 ^ 31 ∧ B = -1) →
        A = B * BitVec.toInt q + BitVec.toInt r ∧ (BitVec.toInt r).natAbs < B.natAbs ∧
          (BitVec.toInt r = 0 ∨ (BitVec.toInt r).sign = A.sign)) ∧
      (A = -2 ^ 31 ∧ B = -1 → BitVec.toInt q = -2 ^ 31 ∧ BitVec.toInt r = 0) ∧
      t = { s with pc := t.pc, x := t.x, rem := t.rem }

/-- Div by zero is Crash 4 with `pc` past the operands and nothing written, a divisor read as 0 through an index
above 31 included (43_arithmetic.md; the spec's D6, log 5; for the indices 32 to 63 its D2, log 2). -/
def Obligations.DivByZeroCrashes : Prop :=
  ∀ (s : State) (rs1 rs2 rd : Byte), s.RegsUsable [rs1, rs2, rd] →
    (s.readReg rs2 = 0 ∨ 31 < rs2.toNat) →
    ∃ t, exec (.div rs1 rs2 rd) s = .next t ∧ t.runState = .crashed ∧ t.pc = s.pc + 4 ∧
      t.logShape = s.logShape ++ [(.crash, 4)] ∧
      t = { s with pc := t.pc, runState := t.runState, events := t.events, clockDraws := t.clockDraws }

/-- Under `OVERFLOW_POLICY = crash` an exact result outside the 32-bit signed range is Crash 5 with `pc` past the
operands and nothing written, for Add, Sub, Mul, and Div of -2^31 by -1 (43_arithmetic.md; the spec's D4 and D7,
log 4). -/
def Obligations.OverflowCrashesUnderTheCrashPolicy : Prop :=
  ∀ (s : State) (rs1 rs2 rd : Byte), s.RegsUsable [rs1, rs2, rd] → s.config.overflowPolicy = .crash →
    ∀ (A B : Int) (i : Instr), A = (s.readReg rs1).toInt → B = (s.readReg rs2).toInt →
    ((i = .add rs1 rs2 rd ∧ ¬ (-2 ^ 31 ≤ A + B ∧ A + B < 2 ^ 31)) ∨
      (i = .sub rs1 rs2 rd ∧ ¬ (-2 ^ 31 ≤ A - B ∧ A - B < 2 ^ 31)) ∨
      (i = .mul rs1 rs2 rd ∧ ¬ (-2 ^ 31 ≤ A * B ∧ A * B < 2 ^ 31)) ∨
      (i = .div rs1 rs2 rd ∧ A = -2 ^ 31 ∧ B = -1)) →
    ∃ t, exec i s = .next t ∧ t.runState = .crashed ∧ t.pc = s.pc + 4 ∧
      t.logShape = s.logShape ++ [(.crash, 5)] ∧
      t = { s with pc := t.pc, runState := t.runState, events := t.events, clockDraws := t.clockDraws }

/-- Eq and Neq complete: the flag becomes whether the two registers hold the same, or different, values, whatever
the filler; nothing else changes but `pc` (44_comparison.md). -/
def Obligations.EqualityComparisonsSetTheFlag : Prop :=
  ∀ (s : State) (ra rb filler : Byte), s.RegsUsable [ra, rb] →
    (∃ t, exec (.eq ra rb filler) s = .next t ∧ t.pc = s.pc + 4 ∧
      (t.flag = true ↔ s.readReg ra = s.readReg rb) ∧ t = { s with pc := t.pc, flag := t.flag }) ∧
    (∃ t, exec (.neq ra rb filler) s = .next t ∧ t.pc = s.pc + 4 ∧
      (t.flag = true ↔ s.readReg ra ≠ s.readReg rb) ∧ t = { s with pc := t.pc, flag := t.flag })

/-- Gt, Gte, Lt and Lte complete: the flag becomes the signed relation of the two registers, whatever the filler;
nothing else changes but `pc` (44_comparison.md). -/
def Obligations.OrderComparisonsSetTheFlag : Prop :=
  ∀ (s : State) (ra rb filler : Byte), s.RegsUsable [ra, rb] →
    (∃ t, exec (.gt ra rb filler) s = .next t ∧ t.pc = s.pc + 4 ∧
      t.flag = BitVec.slt (s.readReg rb) (s.readReg ra) ∧ t = { s with pc := t.pc, flag := t.flag }) ∧
    (∃ t, exec (.gte ra rb filler) s = .next t ∧ t.pc = s.pc + 4 ∧
      t.flag = BitVec.sle (s.readReg rb) (s.readReg ra) ∧ t = { s with pc := t.pc, flag := t.flag }) ∧
    (∃ t, exec (.lt ra rb filler) s = .next t ∧ t.pc = s.pc + 4 ∧
      t.flag = BitVec.slt (s.readReg ra) (s.readReg rb) ∧ t = { s with pc := t.pc, flag := t.flag }) ∧
    (∃ t, exec (.lte ra rb filler) s = .next t ∧ t.pc = s.pc + 4 ∧
      t.flag = BitVec.sle (s.readReg ra) (s.readReg rb) ∧ t = { s with pc := t.pc, flag := t.flag })

/-- Jmp completes: `pc` becomes the register value modulo 2^32, nothing else changes (45_jumps.md; the 32-bit
`pc` is the spec's D9, log 18). -/
def Obligations.JmpSetsPc : Prop :=
  ∀ (s : State) (rr : Byte), s.RegsUsable [rr] →
    ∃ t, exec (.jmp rr) s = .next t ∧ (t.pc.toNat : Int) = (s.readReg rr).toInt % 2 ^ 32 ∧
      t = { s with pc := t.pc }

/-- JmpForward completes: `pc` becomes the offset after the operand byte plus the register value, modulo 2^32;
nothing else changes (45_jumps.md; the base and the width are the spec's D11 and D9, log 18). -/
def Obligations.JmpForwardAddsToPc : Prop :=
  ∀ (s : State) (rr : Byte), s.RegsUsable [rr] →
    ∃ t, exec (.jmpForward rr) s = .next t ∧
      (t.pc.toNat : Int) = ((s.pc.toNat : Int) + 2 + (s.readReg rr).toInt) % 2 ^ 32 ∧
      t = { s with pc := t.pc }

/-- JmpBackward completes: `pc` becomes the offset after the operand byte minus the register value, modulo 2^32;
nothing else changes (45_jumps.md; D11 and D9, log 18). -/
def Obligations.JmpBackwardSubtractsFromPc : Prop :=
  ∀ (s : State) (rr : Byte), s.RegsUsable [rr] →
    ∃ t, exec (.jmpBackward rr) s = .next t ∧
      (t.pc.toNat : Int) = ((s.pc.toNat : Int) + 2 - (s.readReg rr).toInt) % 2 ^ 32 ∧
      t = { s with pc := t.pc }

/-- Jmp with a negative value ends the run at the next bounds check: GracefulStop 1 (45_jumps.md; the spec's D9
and D10, log 18; the reason of Start is its OPEN D15, an opaque constant, log 6). -/
def Obligations.NegativeJmpEndsTheProgram : Prop :=
  ∀ (s t : State) (rr : Byte), s.Inv → s.runState = .running → (s.readReg rr).toInt < 0 →
    exec (.jmp rr) s = .next t →
    ∃ u, step t = .next u ∧ u.runState = .endOfProgram ∧ u.logShape = [startShape, (.gracefulStop, 1)]

/-- With `pc` inside the header the next step is Crash 3 (45_jumps.md; where a jump lands is the spec's D9 and
D11, log 18; the reason of Start is its OPEN D15, an opaque constant, log 6). -/
def Obligations.PcInTheHeaderCrashes : Prop :=
  ∀ s : State, s.Inv → s.runState = .running → s.pc.toNat < 4 →
    ∃ t, step s = .next t ∧ t.runState = .crashed ∧ t.pc = s.pc + 1 ∧
      t.logShape = [startShape, (.crash, 3)]

/-- A jump to itself never ends: Jmp by its own offset, JmpForward by -2 and JmpBackward by 2 leave the state as
it is after every number of steps (40_run_loop.md R83; the base of the relative jumps is the spec's D11,
log 18). -/
def Obligations.JumpToItselfNeverEnds : Prop :=
  ∀ (s : State) (rr : Byte) (i : Instr), s.config.WellFormed → s.runState = .running →
    s.RegsUsable [rr] →
    ((i = .jmp rr ∧ s.readReg rr = s.pc) ∨ (i = .jmpForward rr ∧ (s.readReg rr).toInt = -2) ∨
      (i = .jmpBackward rr ∧ (s.readReg rr).toInt = 2)) →
    (∀ k, k < 2 → s.program.read (s.pc.toNat + k) = (encode s.config.opcodeMap i)[k]?) →
    ∀ n, runSteps n s = .next s
end

