-- ==== Sys2Proof/Laws/Memory.lean ====
section
/-! SUPPORT. What the operations on the program buffer do. -/

namespace Sys2Proof.Machine

/-- No byte at or beyond `L`, and one below it (20_memory.md R44). -/
theorem Memory.read_eq_none_iff (m : Memory) (a : Nat) : m.read a = none ↔ m.length ≤ a := by
  unfold Memory.read
  split <;> simp <;> omega

theorem Memory.read_of_lt (m : Memory) (a : Nat) (h : a < m.length) :
    m.read a = some (lookupCell m.cells a) := by
  simp [Memory.read, h]

/-- The byte at place `k` of a window. -/
theorem Memory.window_getElem? (m : Memory) (a n k : Nat) :
    (m.window a n)[k]? = if k < n then m.read (a + k) else none := by
  induction n generalizing a k with
  | zero => simp [Memory.window]
  | succ n ih =>
    unfold Memory.window
    cases hr : m.read a with
    | none =>
      have hle := (Memory.read_eq_none_iff m a).1 hr
      have : m.read (a + k) = none := (Memory.read_eq_none_iff m (a + k)).2 (by omega)
      simp [this]
    | some b =>
      cases k with
      | zero => simp [hr]
      | succ k =>
        simp only [List.getElem?_cons_succ, ih]
        rw [show a + 1 + k = a + (k + 1) by omega]
        by_cases hk : k < n <;> simp [hk]

/-- A window is cut off at the end of the buffer. -/
theorem Memory.window_length (m : Memory) (a n : Nat) : (m.window a n).length = min n (m.length - a) := by
  induction n generalizing a with
  | zero => simp [Memory.window]
  | succ n ih =>
    unfold Memory.window
    cases hr : m.read a with
    | none =>
      have hle := (Memory.read_eq_none_iff m a).1 hr
      simp only [List.length_nil]
      omega
    | some b =>
      have hlt : a < m.length := by
        by_contra hc
        rw [(Memory.read_eq_none_iff m a).2 (by omega)] at hr
        cases hr
      simp only [List.length_cons, ih]
      omega

/-- A window below the end of the buffer begins with the byte at its offset. -/
theorem Memory.window_of_lt (m : Memory) (a n : Nat) (h : a < m.length) :
    m.window a (n + 1) = lookupCell m.cells a :: m.window (a + 1) n := by
  rw [Memory.window, Memory.read_of_lt m a h]

/-- The window of a buffer at which a list of bytes lies begins with those bytes. -/
theorem Memory.window_of_bytes (m : Memory) (a : Nat) (bs : List Byte)
    (h : ∀ k : Nat, k < bs.length → m.read (a + k) = bs[k]?) (n : Nat) (hn : bs.length ≤ n) :
    m.window a n = bs ++ m.window (a + bs.length) (n - bs.length) := by
  induction bs generalizing a n with
  | nil => simp
  | cons b bs ih =>
    cases n with
    | zero => simp at hn
    | succ n =>
      have h0 : m.read a = some b := by simpa using h 0 (by simp)
      have ht := ih (a + 1)
        (fun k hk => by
          have := h (k + 1) (by simp; omega)
          rw [show a + (k + 1) = a + 1 + k by omega] at this
          simpa using this)
        n (by simpa using hn)
      rw [Memory.window, h0]
      simp only [List.length_cons, List.cons_append, Nat.add_sub_add_right]
      rw [ht, show a + 1 + bs.length = a + (bs.length + 1) by omega]

/-! ### Loading -/

theorem cellsFrom_ge (bs : List Byte) (a : Nat) : ∀ c ∈ cellsFrom a bs, a ≤ c.1 := by
  induction bs generalizing a with
  | nil => simp [cellsFrom]
  | cons b bs ih =>
    intro c hc
    unfold cellsFrom at hc
    split at hc
    · exact Nat.le_trans (Nat.le_succ a) (ih (a + 1) c hc)
    · rcases List.mem_cons.1 hc with rfl | hc
      · exact Nat.le_refl a
      · exact Nat.le_trans (Nat.le_succ a) (ih (a + 1) c hc)

theorem cellsFrom_bounds (bs : List Byte) (a : Nat) :
    ∀ c ∈ cellsFrom a bs, c.1 < a + bs.length ∧ c.2 ≠ 0 := by
  induction bs generalizing a with
  | nil => simp [cellsFrom]
  | cons b bs ih =>
    intro c hc
    unfold cellsFrom at hc
    have step : ∀ c ∈ cellsFrom (a + 1) bs, c.1 < a + (b :: bs).length ∧ c.2 ≠ 0 := fun c hc => by
      have := ih (a + 1) c hc
      simp only [List.length_cons]
      exact ⟨by omega, this.2⟩
    split at hc
    · exact step c hc
    · rename_i hb
      rcases List.mem_cons.1 hc with rfl | hc
      · exact ⟨by simp, hb⟩
      · exact step c hc

theorem cellsFrom_pairwise (bs : List Byte) (a : Nat) :
    (cellsFrom a bs).Pairwise (fun c d => c.1 < d.1) := by
  induction bs generalizing a with
  | nil => simp [cellsFrom]
  | cons b bs ih =>
    unfold cellsFrom
    split
    · exact ih (a + 1)
    · exact List.pairwise_cons.2 ⟨fun c hc => cellsFrom_ge bs (a + 1) c hc, ih (a + 1)⟩

/-- Loading gives a buffer in canonical form. -/
theorem Memory.ofBytes_wf (bs : List Byte) : (Memory.ofBytes bs).wf :=
  ⟨cellsFrom_pairwise bs 0, fun c hc => by simpa [Memory.ofBytes] using cellsFrom_bounds bs 0 c hc⟩

theorem lookupCell_of_forall_ne (cs : List Host.Cell) (a : Nat) (h : ∀ c ∈ cs, c.1 ≠ a) :
    lookupCell cs a = 0 := by
  induction cs with
  | nil => rfl
  | cons c cs ih =>
    obtain ⟨k, b⟩ := c
    have hk : k ≠ a := h (k, b) (by simp)
    simp only [lookupCell, if_neg hk]
    exact ih fun c hc => h c (by simp [hc])

theorem lookupCell_cellsFrom (bs : List Byte) (a k : Nat) :
    lookupCell (cellsFrom a bs) (a + k) = (bs[k]?).getD 0 := by
  induction bs generalizing a k with
  | nil => simp [cellsFrom, lookupCell]
  | cons b bs ih =>
    have below : lookupCell (cellsFrom (a + 1) bs) a = 0 :=
      lookupCell_of_forall_ne _ _ fun c hc => by
        have := cellsFrom_ge bs (a + 1) c hc
        omega
    cases k with
    | zero =>
      unfold cellsFrom
      split
      · rename_i hb
        simp [below, hb]
      · simp [lookupCell]
    | succ k =>
      have hk := ih (a + 1) k
      rw [show a + 1 + k = a + (k + 1) by omega] at hk
      unfold cellsFrom
      split
      · simpa using hk
      · have hne : a ≠ a + (k + 1) := by omega
        simp only [lookupCell, if_neg hne]
        simpa using hk

/-- Byte `k` of a loaded list is `P[k]` (70_reset_and_hazards.md R128). -/
theorem Memory.read_ofBytes (bs : List Byte) (k : Nat) : (Memory.ofBytes bs).read k = bs[k]? := by
  unfold Memory.read Memory.ofBytes
  have hk := lookupCell_cellsFrom bs 0 k
  rw [Nat.zero_add] at hk
  by_cases h : k < bs.length
  · simp [h, hk]
  · simp [h]

@[simp] theorem Memory.ofBytes_length (bs : List Byte) : (Memory.ofBytes bs).length = bs.length := rfl

end Sys2Proof.Machine
end

