-- ==== Sys2Proof/Laws/State.lean ====
section
/-! SUPPORT. One lemma per field per update of the state, each true by `rfl`, so that no proof unfolds a record
update. -/

namespace Sys2Proof.Machine

variable (s : State)

/-! ### `State.advance` -/

@[simp] theorem State.advance_x (n : Nat) : (s.advance n).x = s.x := rfl
@[simp] theorem State.advance_f (n : Nat) : (s.advance n).f = s.f := rfl
@[simp] theorem State.advance_rem (n : Nat) : (s.advance n).rem = s.rem := rfl
@[simp] theorem State.advance_flag (n : Nat) : (s.advance n).flag = s.flag := rfl
@[simp] theorem State.advance_pc (n : Nat) : (s.advance n).pc = s.pc + BitVec.ofNat 32 n := rfl
@[simp] theorem State.advance_runState (n : Nat) : (s.advance n).runState = s.runState := rfl
@[simp] theorem State.advance_events (n : Nat) : (s.advance n).events = s.events := rfl
@[simp] theorem State.advance_program (n : Nat) : (s.advance n).program = s.program := rfl
@[simp] theorem State.advance_heap (n : Nat) : (s.advance n).heap = s.heap := rfl
@[simp] theorem State.advance_stack (n : Nat) : (s.advance n).stack = s.stack := rfl
@[simp] theorem State.advance_identity (n : Nat) : (s.advance n).identity = s.identity := rfl
@[simp] theorem State.advance_parallelUnits (n : Nat) : (s.advance n).parallelUnits = s.parallelUnits := rfl
@[simp] theorem State.advance_config (n : Nat) : (s.advance n).config = s.config := rfl
@[simp] theorem State.advance_clockDraws (n : Nat) : (s.advance n).clockDraws = s.clockDraws := rfl

/-! ### `State.setPc` -/

@[simp] theorem State.setPc_x (v : Word) : (s.setPc v).x = s.x := rfl
@[simp] theorem State.setPc_f (v : Word) : (s.setPc v).f = s.f := rfl
@[simp] theorem State.setPc_rem (v : Word) : (s.setPc v).rem = s.rem := rfl
@[simp] theorem State.setPc_flag (v : Word) : (s.setPc v).flag = s.flag := rfl
@[simp] theorem State.setPc_pc (v : Word) : (s.setPc v).pc = v := rfl
@[simp] theorem State.setPc_runState (v : Word) : (s.setPc v).runState = s.runState := rfl
@[simp] theorem State.setPc_events (v : Word) : (s.setPc v).events = s.events := rfl
@[simp] theorem State.setPc_program (v : Word) : (s.setPc v).program = s.program := rfl
@[simp] theorem State.setPc_heap (v : Word) : (s.setPc v).heap = s.heap := rfl
@[simp] theorem State.setPc_stack (v : Word) : (s.setPc v).stack = s.stack := rfl
@[simp] theorem State.setPc_identity (v : Word) : (s.setPc v).identity = s.identity := rfl
@[simp] theorem State.setPc_parallelUnits (v : Word) : (s.setPc v).parallelUnits = s.parallelUnits := rfl
@[simp] theorem State.setPc_config (v : Word) : (s.setPc v).config = s.config := rfl
@[simp] theorem State.setPc_clockDraws (v : Word) : (s.setPc v).clockDraws = s.clockDraws := rfl

/-! ### `State.emit` -/

@[simp] theorem State.emit_x (tag : EventTag) (r : Nat) : (s.emit tag r).x = s.x := rfl
@[simp] theorem State.emit_f (tag : EventTag) (r : Nat) : (s.emit tag r).f = s.f := rfl
@[simp] theorem State.emit_rem (tag : EventTag) (r : Nat) : (s.emit tag r).rem = s.rem := rfl
@[simp] theorem State.emit_flag (tag : EventTag) (r : Nat) : (s.emit tag r).flag = s.flag := rfl
@[simp] theorem State.emit_pc (tag : EventTag) (r : Nat) : (s.emit tag r).pc = s.pc := rfl
@[simp] theorem State.emit_runState (tag : EventTag) (r : Nat) : (s.emit tag r).runState = s.runState := rfl
@[simp] theorem State.emit_events (tag : EventTag) (r : Nat) : (s.emit tag r).events = s.events ++ [s.stamp tag r] := rfl
@[simp] theorem State.emit_program (tag : EventTag) (r : Nat) : (s.emit tag r).program = s.program := rfl
@[simp] theorem State.emit_heap (tag : EventTag) (r : Nat) : (s.emit tag r).heap = s.heap := rfl
@[simp] theorem State.emit_stack (tag : EventTag) (r : Nat) : (s.emit tag r).stack = s.stack := rfl
@[simp] theorem State.emit_identity (tag : EventTag) (r : Nat) : (s.emit tag r).identity = s.identity := rfl
@[simp] theorem State.emit_parallelUnits (tag : EventTag) (r : Nat) : (s.emit tag r).parallelUnits = s.parallelUnits := rfl
@[simp] theorem State.emit_config (tag : EventTag) (r : Nat) : (s.emit tag r).config = s.config := rfl
@[simp] theorem State.emit_clockDraws (tag : EventTag) (r : Nat) : (s.emit tag r).clockDraws = s.clockDraws + 1 := rfl

/-! ### `State.enter` -/

@[simp] theorem State.enter_x (r : RunState) : (s.enter r).x = s.x := rfl
@[simp] theorem State.enter_f (r : RunState) : (s.enter r).f = s.f := rfl
@[simp] theorem State.enter_rem (r : RunState) : (s.enter r).rem = s.rem := rfl
@[simp] theorem State.enter_flag (r : RunState) : (s.enter r).flag = s.flag := rfl
@[simp] theorem State.enter_pc (r : RunState) : (s.enter r).pc = s.pc := rfl
@[simp] theorem State.enter_runState (r : RunState) : (s.enter r).runState = r := rfl
@[simp] theorem State.enter_events (r : RunState) : (s.enter r).events = s.events := rfl
@[simp] theorem State.enter_program (r : RunState) : (s.enter r).program = s.program := rfl
@[simp] theorem State.enter_heap (r : RunState) : (s.enter r).heap = s.heap := rfl
@[simp] theorem State.enter_stack (r : RunState) : (s.enter r).stack = s.stack := rfl
@[simp] theorem State.enter_identity (r : RunState) : (s.enter r).identity = s.identity := rfl
@[simp] theorem State.enter_parallelUnits (r : RunState) : (s.enter r).parallelUnits = s.parallelUnits := rfl
@[simp] theorem State.enter_config (r : RunState) : (s.enter r).config = s.config := rfl
@[simp] theorem State.enter_clockDraws (r : RunState) : (s.enter r).clockDraws = s.clockDraws := rfl

/-! ### `State.terminate` -/

@[simp] theorem State.terminate_x (tag : EventTag) (c : Nat) (r : RunState) : (s.terminate tag c r).x = s.x := rfl
@[simp] theorem State.terminate_f (tag : EventTag) (c : Nat) (r : RunState) : (s.terminate tag c r).f = s.f := rfl
@[simp] theorem State.terminate_rem (tag : EventTag) (c : Nat) (r : RunState) : (s.terminate tag c r).rem = s.rem := rfl
@[simp] theorem State.terminate_flag (tag : EventTag) (c : Nat) (r : RunState) : (s.terminate tag c r).flag = s.flag := rfl
@[simp] theorem State.terminate_pc (tag : EventTag) (c : Nat) (r : RunState) : (s.terminate tag c r).pc = s.pc := rfl
@[simp] theorem State.terminate_runState (tag : EventTag) (c : Nat) (r : RunState) : (s.terminate tag c r).runState = r := rfl
@[simp] theorem State.terminate_events (tag : EventTag) (c : Nat) (r : RunState) : (s.terminate tag c r).events = s.events ++ [s.stamp tag c] := rfl
@[simp] theorem State.terminate_program (tag : EventTag) (c : Nat) (r : RunState) : (s.terminate tag c r).program = s.program := rfl
@[simp] theorem State.terminate_heap (tag : EventTag) (c : Nat) (r : RunState) : (s.terminate tag c r).heap = s.heap := rfl
@[simp] theorem State.terminate_stack (tag : EventTag) (c : Nat) (r : RunState) : (s.terminate tag c r).stack = s.stack := rfl
@[simp] theorem State.terminate_identity (tag : EventTag) (c : Nat) (r : RunState) : (s.terminate tag c r).identity = s.identity := rfl
@[simp] theorem State.terminate_parallelUnits (tag : EventTag) (c : Nat) (r : RunState) : (s.terminate tag c r).parallelUnits = s.parallelUnits := rfl
@[simp] theorem State.terminate_config (tag : EventTag) (c : Nat) (r : RunState) : (s.terminate tag c r).config = s.config := rfl
@[simp] theorem State.terminate_clockDraws (tag : EventTag) (c : Nat) (r : RunState) : (s.terminate tag c r).clockDraws = s.clockDraws + 1 := rfl

/-! ### `State.stop` -/

@[simp] theorem State.stop_x (r : StopReason) : (s.stop r).x = s.x := rfl
@[simp] theorem State.stop_f (r : StopReason) : (s.stop r).f = s.f := rfl
@[simp] theorem State.stop_rem (r : StopReason) : (s.stop r).rem = s.rem := rfl
@[simp] theorem State.stop_flag (r : StopReason) : (s.stop r).flag = s.flag := rfl
@[simp] theorem State.stop_pc (r : StopReason) : (s.stop r).pc = s.pc := rfl
@[simp] theorem State.stop_runState (r : StopReason) : (s.stop r).runState = r.runState := rfl
@[simp] theorem State.stop_events (r : StopReason) : (s.stop r).events = s.events ++ [s.stamp .gracefulStop r.code] := rfl
@[simp] theorem State.stop_program (r : StopReason) : (s.stop r).program = s.program := rfl
@[simp] theorem State.stop_heap (r : StopReason) : (s.stop r).heap = s.heap := rfl
@[simp] theorem State.stop_stack (r : StopReason) : (s.stop r).stack = s.stack := rfl
@[simp] theorem State.stop_identity (r : StopReason) : (s.stop r).identity = s.identity := rfl
@[simp] theorem State.stop_parallelUnits (r : StopReason) : (s.stop r).parallelUnits = s.parallelUnits := rfl
@[simp] theorem State.stop_config (r : StopReason) : (s.stop r).config = s.config := rfl
@[simp] theorem State.stop_clockDraws (r : StopReason) : (s.stop r).clockDraws = s.clockDraws + 1 := rfl

/-! ### `State.crash` -/

@[simp] theorem State.crash_x (r : CrashReason) : (s.crash r).x = s.x := rfl
@[simp] theorem State.crash_f (r : CrashReason) : (s.crash r).f = s.f := rfl
@[simp] theorem State.crash_rem (r : CrashReason) : (s.crash r).rem = s.rem := rfl
@[simp] theorem State.crash_flag (r : CrashReason) : (s.crash r).flag = s.flag := rfl
@[simp] theorem State.crash_pc (r : CrashReason) : (s.crash r).pc = s.pc := rfl
@[simp] theorem State.crash_runState (r : CrashReason) : (s.crash r).runState = .crashed := rfl
@[simp] theorem State.crash_events (r : CrashReason) : (s.crash r).events = s.events ++ [s.stamp .crash r.code] := rfl
@[simp] theorem State.crash_program (r : CrashReason) : (s.crash r).program = s.program := rfl
@[simp] theorem State.crash_heap (r : CrashReason) : (s.crash r).heap = s.heap := rfl
@[simp] theorem State.crash_stack (r : CrashReason) : (s.crash r).stack = s.stack := rfl
@[simp] theorem State.crash_identity (r : CrashReason) : (s.crash r).identity = s.identity := rfl
@[simp] theorem State.crash_parallelUnits (r : CrashReason) : (s.crash r).parallelUnits = s.parallelUnits := rfl
@[simp] theorem State.crash_config (r : CrashReason) : (s.crash r).config = s.config := rfl
@[simp] theorem State.crash_clockDraws (r : CrashReason) : (s.crash r).clockDraws = s.clockDraws + 1 := rfl

/-! ### `State.writeReg` -/

@[simp] theorem State.writeReg_x (b : Byte) (v : Word) : (s.writeReg b v).x = s.x.setIfInBounds b.toNat v := rfl
@[simp] theorem State.writeReg_f (b : Byte) (v : Word) : (s.writeReg b v).f = s.f := rfl
@[simp] theorem State.writeReg_rem (b : Byte) (v : Word) : (s.writeReg b v).rem = s.rem := rfl
@[simp] theorem State.writeReg_flag (b : Byte) (v : Word) : (s.writeReg b v).flag = s.flag := rfl
@[simp] theorem State.writeReg_pc (b : Byte) (v : Word) : (s.writeReg b v).pc = s.pc := rfl
@[simp] theorem State.writeReg_runState (b : Byte) (v : Word) : (s.writeReg b v).runState = s.runState := rfl
@[simp] theorem State.writeReg_events (b : Byte) (v : Word) : (s.writeReg b v).events = s.events := rfl
@[simp] theorem State.writeReg_program (b : Byte) (v : Word) : (s.writeReg b v).program = s.program := rfl
@[simp] theorem State.writeReg_heap (b : Byte) (v : Word) : (s.writeReg b v).heap = s.heap := rfl
@[simp] theorem State.writeReg_stack (b : Byte) (v : Word) : (s.writeReg b v).stack = s.stack := rfl
@[simp] theorem State.writeReg_identity (b : Byte) (v : Word) : (s.writeReg b v).identity = s.identity := rfl
@[simp] theorem State.writeReg_parallelUnits (b : Byte) (v : Word) : (s.writeReg b v).parallelUnits = s.parallelUnits := rfl
@[simp] theorem State.writeReg_config (b : Byte) (v : Word) : (s.writeReg b v).config = s.config := rfl
@[simp] theorem State.writeReg_clockDraws (b : Byte) (v : Word) : (s.writeReg b v).clockDraws = s.clockDraws := rfl

/-! ### `State.setFlag` -/

@[simp] theorem State.setFlag_x (v : Bool) : (s.setFlag v).x = s.x := rfl
@[simp] theorem State.setFlag_f (v : Bool) : (s.setFlag v).f = s.f := rfl
@[simp] theorem State.setFlag_rem (v : Bool) : (s.setFlag v).rem = s.rem := rfl
@[simp] theorem State.setFlag_flag (v : Bool) : (s.setFlag v).flag = v := rfl
@[simp] theorem State.setFlag_pc (v : Bool) : (s.setFlag v).pc = s.pc := rfl
@[simp] theorem State.setFlag_runState (v : Bool) : (s.setFlag v).runState = s.runState := rfl
@[simp] theorem State.setFlag_events (v : Bool) : (s.setFlag v).events = s.events := rfl
@[simp] theorem State.setFlag_program (v : Bool) : (s.setFlag v).program = s.program := rfl
@[simp] theorem State.setFlag_heap (v : Bool) : (s.setFlag v).heap = s.heap := rfl
@[simp] theorem State.setFlag_stack (v : Bool) : (s.setFlag v).stack = s.stack := rfl
@[simp] theorem State.setFlag_identity (v : Bool) : (s.setFlag v).identity = s.identity := rfl
@[simp] theorem State.setFlag_parallelUnits (v : Bool) : (s.setFlag v).parallelUnits = s.parallelUnits := rfl
@[simp] theorem State.setFlag_config (v : Bool) : (s.setFlag v).config = s.config := rfl
@[simp] theorem State.setFlag_clockDraws (v : Bool) : (s.setFlag v).clockDraws = s.clockDraws := rfl

/-! ### `State.setRem` -/

@[simp] theorem State.setRem_x (v : Word) : (s.setRem v).x = s.x := rfl
@[simp] theorem State.setRem_f (v : Word) : (s.setRem v).f = s.f := rfl
@[simp] theorem State.setRem_rem (v : Word) : (s.setRem v).rem = v := rfl
@[simp] theorem State.setRem_flag (v : Word) : (s.setRem v).flag = s.flag := rfl
@[simp] theorem State.setRem_pc (v : Word) : (s.setRem v).pc = s.pc := rfl
@[simp] theorem State.setRem_runState (v : Word) : (s.setRem v).runState = s.runState := rfl
@[simp] theorem State.setRem_events (v : Word) : (s.setRem v).events = s.events := rfl
@[simp] theorem State.setRem_program (v : Word) : (s.setRem v).program = s.program := rfl
@[simp] theorem State.setRem_heap (v : Word) : (s.setRem v).heap = s.heap := rfl
@[simp] theorem State.setRem_stack (v : Word) : (s.setRem v).stack = s.stack := rfl
@[simp] theorem State.setRem_identity (v : Word) : (s.setRem v).identity = s.identity := rfl
@[simp] theorem State.setRem_parallelUnits (v : Word) : (s.setRem v).parallelUnits = s.parallelUnits := rfl
@[simp] theorem State.setRem_config (v : Word) : (s.setRem v).config = s.config := rfl
@[simp] theorem State.setRem_clockDraws (v : Word) : (s.setRem v).clockDraws = s.clockDraws := rfl

/-! ### Events and reading registers -/

@[simp] theorem State.stamp_tag (tag : EventTag) (r : Nat) : (s.stamp tag r).tag = tag := rfl
@[simp] theorem State.stamp_reason (tag : EventTag) (r : Nat) : (s.stamp tag r).reason = r := rfl
@[simp] theorem State.stamp_identity (tag : EventTag) (r : Nat) : (s.stamp tag r).identity = s.identity := rfl
@[simp] theorem State.stamp_timestamp (tag : EventTag) (r : Nat) :
    (s.stamp tag r).timestamp = Config.hostClock s.identity s.clockDraws := rfl

@[simp] theorem State.advance_readReg (n : Nat) (b : Byte) : (s.advance n).readReg b = s.readReg b := rfl
@[simp] theorem State.setPc_readReg (v : Word) (b : Byte) : (s.setPc v).readReg b = s.readReg b := rfl
@[simp] theorem State.emit_readReg (tag : EventTag) (r : Nat) (b : Byte) :
    (s.emit tag r).readReg b = s.readReg b := rfl
@[simp] theorem State.enter_readReg (r : RunState) (b : Byte) : (s.enter r).readReg b = s.readReg b := rfl
@[simp] theorem State.stop_readReg (r : StopReason) (b : Byte) : (s.stop r).readReg b = s.readReg b := rfl
@[simp] theorem State.crash_readReg (r : CrashReason) (b : Byte) : (s.crash r).readReg b = s.readReg b := rfl
@[simp] theorem State.setFlag_readReg (v : Bool) (b : Byte) : (s.setFlag v).readReg b = s.readReg b := rfl
@[simp] theorem State.setRem_readReg (v : Word) (b : Byte) : (s.setRem v).readReg b = s.readReg b := rfl

/-- What a register write does to a later read (10_state.md R19, R20). -/
theorem State.readReg_writeReg (b c : Byte) (v : Word) :
    (s.writeReg b v).readReg c = if c = b ∧ b.toNat ≤ 31 then v else s.readReg c := by
  unfold State.readReg State.writeReg
  simp only [Vector.getElem?_setIfInBounds]
  by_cases h : c = b
  · subst h
    by_cases hb : c.toNat < 32
    · simp [hb, Nat.le_of_lt_succ hb]
    · have hle : ¬ c.toNat ≤ 31 := by omega
      simp [hb, hle]
  · have hne : b.toNat ≠ c.toNat := fun e => h (BitVec.eq_of_toNat_eq e.symm)
    simp [h, hne]

/-- An index above 31 reads 0 (10_state.md R19). -/
theorem State.readReg_out (b : Byte) (h : 32 ≤ b.toNat) : s.readReg b = 0 := by
  have hn : s.x[b.toNat]? = none := by simp; omega
  simp [State.readReg, hn]

/-- A write to an index above 31 changes nothing (10_state.md R20). -/
theorem State.writeReg_out (b : Byte) (v : Word) (h : 32 ≤ b.toNat) : s.writeReg b v = s := by
  have hx : s.x.setIfInBounds b.toNat v = s.x := by
    apply Vector.ext
    intro i hi
    have hne : b.toNat ≠ i := by omega
    simp [hne]
  simp [State.writeReg, hx]

end Sys2Proof.Machine
end

