-- ==== Sys2Proof/Laws/Exec.lean ====
section
/-! SUPPORT. What the shared operations, the instructions and a step can do, said once each, so that later proofs
cite these and do not unfold the definitions. -/

namespace Sys2Proof.Machine

variable {s t : State}

/-! ### The shape of the event log -/

@[simp] theorem State.advance_logShape (n : Nat) : (s.advance n).logShape = s.logShape := rfl
@[simp] theorem State.setPc_logShape (v : Word) : (s.setPc v).logShape = s.logShape := rfl
@[simp] theorem State.enter_logShape (r : RunState) : (s.enter r).logShape = s.logShape := rfl
@[simp] theorem State.emit_logShape (tag : EventTag) (c : Nat) :
    (s.emit tag c).logShape = s.logShape ++ [(tag, c)] := by simp [State.logShape]
@[simp] theorem State.stop_logShape (r : StopReason) :
    (s.stop r).logShape = s.logShape ++ [(.gracefulStop, r.code)] := by simp [State.logShape]
@[simp] theorem State.crash_logShape (r : CrashReason) :
    (s.crash r).logShape = s.logShape ++ [(.crash, r.code)] := by simp [State.logShape]

/-! ### Operands -/

theorem not_inFpRange_iff (b : Byte) : inFpRange b = false ↔ b.toNat < 32 ∨ 63 < b.toNat := by
  simp [inFpRange]
  omega

/-- An instruction whose operands are usable has its meaning. -/
theorem State.withRegs_of_usable {regs : List Byte} (h : s.RegsUsable regs)
    (o : Host.Outcome State Fault Refusal) : s.withRegs regs o = o := by
  unfold State.withRegs
  by_cases hc : s.config.fpBankReachable = true
  · have hall : regs.any inFpRange = false := by
      rw [List.any_eq_false]
      intro b hb
      simpa using (not_inFpRange_iff b).2 (h hc b hb)
    simp [hall]
  · simp [hc]

/-- An instruction is refused by name exactly when an operand is not usable (10_state.md R25). -/
theorem State.withRegs_of_not_usable {regs : List Byte} (h : ¬ s.RegsUsable regs)
    (o : Host.Outcome State Fault Refusal) : s.withRegs regs o = .refused .fpBankSemantics := by
  unfold State.RegsUsable at h
  push Not at h
  obtain ⟨hc, b, hb, h1, h2⟩ := h
  have hany : regs.any inFpRange = true := List.any_eq_true.2 ⟨b, hb, by simp [inFpRange, h1, h2]⟩
  simp [State.withRegs, hc, hany]

@[simp] theorem State.withRegs_nil (o : Host.Outcome State Fault Refusal) : s.withRegs [] o = o := by
  simp [State.withRegs]

/-- With the default parameter every operand byte is usable. -/
theorem State.regsUsable_of_default (h : s.config.fpBankReachable = false) (regs : List Byte) :
    s.RegsUsable regs := fun hc => by simp [h] at hc

theorem fits32_iff (n : Int) : fits32 n = true ↔ -2 ^ 31 ≤ n ∧ n < 2 ^ 31 := by
  simp [fits32]

theorem State.overflows_eq_false_iff (n : Int) : s.overflows n = false ↔ s.ResultKept n := by
  unfold State.overflows State.ResultKept
  rw [← fits32_iff]
  cases s.config.overflowPolicy <;> simp

theorem State.overflows_eq_true_iff (n : Int) :
    s.overflows n = true ↔ s.config.overflowPolicy = .crash ∧ ¬ (-2 ^ 31 ≤ n ∧ n < 2 ^ 31) := by
  unfold State.overflows
  rw [← fits32_iff]
  cases s.config.overflowPolicy <;> simp

/-! ### Instructions -/

/-- What an instruction that answers a next state does: it goes on, having written at most `pc`, the integer
registers, `rem` and `flag`; or it halts; or it crashes, having written `pc` alone. -/
inductive Effect (s : State) : State → Prop
  | goesOn (pc : Word) (x : Vector Word 32) (rem : Word) (flag : Bool) :
      Effect s { s with pc := pc, x := x, rem := rem, flag := flag }
  | halts (pc : Word) : Effect s ((s.setPc pc).stop .gracefulHalt)
  | crashes (pc : Word) (r : CrashReason)
      (hr : r = .unknownOpcode ∨ r = .divisionByZero ∨
        (r = .arithmeticOverflow ∧ s.config.overflowPolicy = .crash)) :
      Effect s ((s.setPc pc).crash r)

theorem State.arith_effect (s : State) (op : Int → Int → Int) (rs1 rs2 rd : Byte) :
    ∃ t, s.arith op rs1 rs2 rd = s.withRegs [rs1, rs2, rd] (.next t) ∧ Effect s t := by
  unfold State.arith
  cases hn : s.overflows (op (s.readReg rs1).toInt (s.readReg rs2).toInt) with
  | true =>
    refine ⟨(s.advance 4).crash .arithmeticOverflow, by simp [hn], ?_⟩
    exact Effect.crashes (s.pc + BitVec.ofNat 32 4) _ (.inr (.inr ⟨rfl, (s.overflows_eq_true_iff _).1 hn |>.1⟩))
  | false =>
    refine ⟨(s.advance 4).writeReg rd (wrap32 (op (s.readReg rs1).toInt (s.readReg rs2).toInt)),
      by simp [hn], ?_⟩
    exact Effect.goesOn _ _ s.rem s.flag

theorem execDiv_effect (s : State) (rs1 rs2 rd : Byte) :
    ∃ t, execDiv rs1 rs2 rd s = s.withRegs [rs1, rs2, rd] (.next t) ∧ Effect s t := by
  unfold execDiv
  by_cases hb : (s.readReg rs2).toInt = 0
  · exact ⟨(s.advance 4).crash .divisionByZero, by simp [hb],
      Effect.crashes (s.pc + BitVec.ofNat 32 4) _ (.inr (.inl rfl))⟩
  · cases hn : s.overflows ((s.readReg rs1).toInt.tdiv (s.readReg rs2).toInt) with
    | true =>
      refine ⟨(s.advance 4).crash .arithmeticOverflow, by simp [hb, hn], ?_⟩
      exact Effect.crashes (s.pc + BitVec.ofNat 32 4) _
        (.inr (.inr ⟨rfl, (s.overflows_eq_true_iff _).1 hn |>.1⟩))
    | false =>
      refine ⟨((s.advance 4).writeReg rd _).setRem _, by simp [hb, hn]; rfl, ?_⟩
      exact Effect.goesOn _ _ _ s.flag

theorem State.compare_effect (s : State) (r : Relation) (ra rb : Byte) :
    ∃ t, s.compare r ra rb = s.withRegs [ra, rb] (.next t) ∧ Effect s t :=
  ⟨_, rfl, Effect.goesOn _ s.x s.rem _⟩

theorem State.jump_effect (s : State) (target : Int → Int) (rr : Byte) :
    ∃ t, s.jump target rr = s.withRegs [rr] (.next t) ∧ Effect s t :=
  ⟨_, rfl, Effect.goesOn _ s.x s.rem s.flag⟩

/-- What every instruction does: it is refused if an operand is not usable, and else answers a next state with
one of the effects. -/
theorem exec_effect (i : Instr) (s : State) :
    ∃ t, exec i s = s.withRegs i.regs (.next t) ∧ Effect s t := by
  cases i with
  | halt => exact ⟨_, by rw [Instr.regs, State.withRegs_nil]; rfl, Effect.halts (s.pc + BitVec.ofNat 32 1)⟩
  | load rd imm => exact ⟨_, rfl, Effect.goesOn _ _ s.rem s.flag⟩
  | add rs1 rs2 rd => exact s.arith_effect _ rs1 rs2 rd
  | sub rs1 rs2 rd => exact s.arith_effect _ rs1 rs2 rd
  | mul rs1 rs2 rd => exact s.arith_effect _ rs1 rs2 rd
  | div rs1 rs2 rd => exact execDiv_effect s rs1 rs2 rd
  | eq ra rb filler => exact s.compare_effect _ ra rb
  | neq ra rb filler => exact s.compare_effect _ ra rb
  | jmp rr => exact s.jump_effect (fun v => v) rr
  | jmpForward rr => exact s.jump_effect _ rr
  | jmpBackward rr => exact s.jump_effect _ rr
  | gt ra rb filler => exact s.compare_effect _ ra rb
  | gte ra rb filler => exact s.compare_effect _ ra rb
  | lt ra rb filler => exact s.compare_effect _ ra rb
  | lte ra rb filler => exact s.compare_effect _ ra rb
  | illegal op =>
    exact ⟨_, by rw [Instr.regs, State.withRegs_nil]; rfl,
      Effect.crashes (s.pc + BitVec.ofNat 32 1) _ (.inl rfl)⟩

/-- An instruction that answers a next state has usable operands and one of the effects. -/
theorem exec_next {i : Instr} (h : exec i s = .next t) : s.RegsUsable i.regs ∧ Effect s t := by
  obtain ⟨t', he, hef⟩ := exec_effect i s
  by_cases hu : s.RegsUsable i.regs
  · rw [he, State.withRegs_of_usable hu] at h
    cases h
    exact ⟨hu, hef⟩
  · rw [he, State.withRegs_of_not_usable hu] at h
    cases h

/-! ### Steps -/

/-- The three ways a run can start (40_run_loop.md R71 to R73). -/
theorem startRun_cases (s : State) :
    (s.program.length < 4 ∧ startRun s = (s.emit .start Config.startReason).crash .incompleteBytecode) ∨
    (4 ≤ s.program.length ∧ s.program.window 0 4 ≠ magic ∧
      startRun s = (s.emit .start Config.startReason).crash .invalidHeader) ∨
    (4 ≤ s.program.length ∧ s.program.window 0 4 = magic ∧
      startRun s = (((s.emit .start Config.startReason).setPc entry).enter .running)) := by
  have hm : magic.length = 4 := rfl
  unfold startRun
  simp only [hm, State.emit_program]
  by_cases h1 : s.program.length < 4
  · exact .inl ⟨h1, by simp [h1]⟩
  · by_cases h2 : s.program.window 0 4 = magic
    · exact .inr (.inr ⟨by omega, h2, by simp [h1, h2]⟩)
    · exact .inr (.inl ⟨by omega, h2, by simp [h1, h2]⟩)

/-- The three ways an iteration of the run loop can go (R75 to R82). -/
theorem iterate_cases (s : State) :
    (s.program.length ≤ s.pc.toNat ∧ iterate s = .next (s.stop .endOfProgram)) ∨
    (s.pc.toNat < s.program.length ∧ (∃ e, s.fetch = .error e) ∧
      iterate s = .next ((s.advance 1).crash .incompleteBytecode)) ∨
    (s.pc.toNat < s.program.length ∧ ∃ i rest, s.fetch = .ok (i, rest) ∧ iterate s = exec i s) := by
  unfold iterate
  by_cases h : s.program.length ≤ s.pc.toNat
  · exact .inl ⟨h, by simp [h]⟩
  · have hlt : s.pc.toNat < s.program.length := by omega
    cases hf : s.fetch with
    | error e => exact .inr (.inl ⟨hlt, ⟨e, rfl⟩, by simp [h]⟩)
    | ok p => exact .inr (.inr ⟨hlt, p.1, p.2, rfl, by simp [h]⟩)

/-- Everything a step can do when it answers a next state. -/
theorem step_next (h : step s = .next t) :
    (s.runState = .notStarted ∧ t = startRun s) ∨
    (s.runState = .running ∧ s.program.length ≤ s.pc.toNat ∧ t = s.stop .endOfProgram) ∨
    (s.runState = .running ∧ s.pc.toNat < s.program.length ∧ t = (s.advance 1).crash .incompleteBytecode) ∨
    (s.runState = .running ∧ s.pc.toNat < s.program.length ∧
      ∃ i rest, s.fetch = .ok (i, rest) ∧ exec i s = .next t ∧ Effect s t) := by
  unfold step at h
  split at h
  · rename_i hr
    cases h
    exact .inl ⟨hr, rfl⟩
  · rename_i hr
    rcases iterate_cases s with ⟨hp, hi⟩ | ⟨hp, -, hi⟩ | ⟨hp, i, rest, hf, hi⟩
    · rw [hi] at h
      cases h
      exact .inr (.inl ⟨hr, hp, rfl⟩)
    · rw [hi] at h
      cases h
      exact .inr (.inr (.inl ⟨hr, hp, rfl⟩))
    · rw [hi] at h
      exact .inr (.inr (.inr ⟨hr, hp, i, rest, hf, h, (exec_next h).2⟩))
  · cases h
  · cases h
  · cases h

@[simp] theorem runSteps_zero (s : State) : runSteps 0 s = .next s := rfl

/-- Running one step more is a step and then the rest. -/
theorem runSteps_succ (k : Nat) (s : State) :
    runSteps (k + 1) s =
      match step s with
      | .next t => runSteps k t
      | .fault r => .fault r
      | .refused r => .refused r := rfl

/-- The first byte a running engine fetches decides the tag it decodes. -/
theorem State.fetch_of_lt (s : State) (h : s.pc.toNat < s.program.length) :
    s.fetch = decodeOperands (decodeTag s.config.opcodeMap (lookupCell s.program.cells s.pc.toNat))
      (lookupCell s.program.cells s.pc.toNat) (s.program.window (s.pc.toNat + 1) 3) := by
  unfold State.fetch
  rw [show maxInstrBytes = 3 + 1 from rfl, Memory.window_of_lt _ _ _ h]
  rfl

end Sys2Proof.Machine
end

