-- ==== Sys2Proof/Laws/PerInstr.lean ====
section
/-! SUPPORT. Laws stated for one instruction at a time, one lemma for each constructor of `Instr`. -/

namespace Sys2Proof.Laws

/-! ### Opcode bytes -/

/-- Under a legal map, the byte that names an operation decodes to it (30_encoding.md R53). -/
theorem decodeTag_opcodeByte (m : List Tag) (hm : OpcodeMapWF m) (t : Tag) (ht : t ∈ Tag.operations) :
    decodeTag m (opcodeByte m t) = t := by
  have hmem : t ∈ m := hm.mem_iff.2 ht
  have hlen : m.length = 15 := hm.length_eq
  have hlt : m.idxOf t < m.length := List.idxOf_lt_length_iff.2 hmem
  have hnat : (opcodeByte m t).toNat = m.idxOf t := by
    simp only [opcodeByte, BitVec.toNat_ofNat]
    omega
  simp [decodeTag, hnat, List.getElem?_eq_getElem hlt]

/-- Under a legal map, the Illegal bytes are 15 to 255 (R54). -/
theorem decodeTag_eq_illegal_iff (m : List Tag) (hm : OpcodeMapWF m) (op : Byte) :
    decodeTag m op = .illegal ↔ 15 ≤ op.toNat := by
  have hlen : m.length = 15 := hm.length_eq
  by_cases h : op.toNat < m.length
  · have hmem : m[op.toNat] ∈ Tag.operations := hm.mem_iff.1 (List.getElem_mem h)
    have hne : m[op.toNat] ≠ .illegal := fun e => by
      rw [e] at hmem
      revert hmem
      decide
    simp [decodeTag, List.getElem?_eq_getElem h, hne]
    omega
  · have hnone : m[op.toNat]? = none := by simp; omega
    simp [decodeTag, hnone]
    omega

/-- Under a legal map, an operation's decoded byte encodes back to that byte. -/
theorem opcodeByte_decodeTag (m : List Tag) (hm : OpcodeMapWF m) (op : Byte) (h : op.toNat < 15) :
    opcodeByte m (decodeTag m op) = op := by
  have hlen : m.length = 15 := hm.length_eq
  have hlt : op.toNat < m.length := by omega
  have hnodup : m.Nodup := hm.nodup_iff.2 (by decide)
  apply BitVec.eq_of_toNat_eq
  simp [decodeTag, opcodeByte, List.getElem?_eq_getElem hlt, hnodup.idxOf_getElem]

/-- The two immediate bytes give the immediate back (R60). -/
theorem immOf_immHi_immLo (imm : Imm16) : immOf (immHi imm) (immLo imm) = imm := by
  apply BitVec.eq_of_toNat_eq
  have := imm.isLt
  simp only [immOf, immHi, immLo, BitVec.toNat_ofNat]
  omega

theorem immHi_immOf (hi lo : Byte) : immHi (immOf hi lo) = hi := by
  apply BitVec.eq_of_toNat_eq
  have := hi.isLt
  have := lo.isLt
  simp only [immOf, immHi, BitVec.toNat_ofNat]
  omega

theorem immLo_immOf (hi lo : Byte) : immLo (immOf hi lo) = lo := by
  apply BitVec.eq_of_toNat_eq
  have := hi.isLt
  have := lo.isLt
  simp only [immOf, immLo, BitVec.toNat_ofNat]
  omega

/-! ### Decoding an encoded instruction -/

namespace RoundTrip

/-- Under every legal opcode map, decoding the bytes of a well-formed instruction gives it back, and leaves
the bytes after it. -/
def Statement (i : Instr) : Prop :=
  ∀ m : List Tag, OpcodeMapWF m → i.wellFormed = true → ∀ rest : List Byte,
    decode m (encode m i ++ rest) = .ok (i, rest)

theorem halt : Statement .halt := fun m hm _ rest => by
  simp [encode, decode, decodeTag_opcodeByte m hm .halt (by decide), decodeOperands]

theorem load (rd : Byte) (imm : Imm16) : Statement (.load rd imm) := fun m hm _ rest => by
  simp [encode, decode, decodeTag_opcodeByte m hm .load (by decide), decodeOperands, immOf_immHi_immLo]

theorem add (rs1 rs2 rd : Byte) : Statement (.add rs1 rs2 rd) := fun m hm _ rest => by
  simp [encode, decode, decodeTag_opcodeByte m hm .add (by decide), decodeOperands]

theorem sub (rs1 rs2 rd : Byte) : Statement (.sub rs1 rs2 rd) := fun m hm _ rest => by
  simp [encode, decode, decodeTag_opcodeByte m hm .sub (by decide), decodeOperands]

theorem mul (rs1 rs2 rd : Byte) : Statement (.mul rs1 rs2 rd) := fun m hm _ rest => by
  simp [encode, decode, decodeTag_opcodeByte m hm .mul (by decide), decodeOperands]

theorem div (rs1 rs2 rd : Byte) : Statement (.div rs1 rs2 rd) := fun m hm _ rest => by
  simp [encode, decode, decodeTag_opcodeByte m hm .div (by decide), decodeOperands]

theorem eq (ra rb filler : Byte) : Statement (.eq ra rb filler) := fun m hm _ rest => by
  simp [encode, decode, decodeTag_opcodeByte m hm .eq (by decide), decodeOperands]

theorem neq (ra rb filler : Byte) : Statement (.neq ra rb filler) := fun m hm _ rest => by
  simp [encode, decode, decodeTag_opcodeByte m hm .neq (by decide), decodeOperands]

theorem jmp (rr : Byte) : Statement (.jmp rr) := fun m hm _ rest => by
  simp [encode, decode, decodeTag_opcodeByte m hm .jmp (by decide), decodeOperands]

theorem jmpForward (rr : Byte) : Statement (.jmpForward rr) := fun m hm _ rest => by
  simp [encode, decode, decodeTag_opcodeByte m hm .jmpForward (by decide), decodeOperands]

theorem jmpBackward (rr : Byte) : Statement (.jmpBackward rr) := fun m hm _ rest => by
  simp [encode, decode, decodeTag_opcodeByte m hm .jmpBackward (by decide), decodeOperands]

theorem gt (ra rb filler : Byte) : Statement (.gt ra rb filler) := fun m hm _ rest => by
  simp [encode, decode, decodeTag_opcodeByte m hm .gt (by decide), decodeOperands]

theorem gte (ra rb filler : Byte) : Statement (.gte ra rb filler) := fun m hm _ rest => by
  simp [encode, decode, decodeTag_opcodeByte m hm .gte (by decide), decodeOperands]

theorem lt (ra rb filler : Byte) : Statement (.lt ra rb filler) := fun m hm _ rest => by
  simp [encode, decode, decodeTag_opcodeByte m hm .lt (by decide), decodeOperands]

theorem lte (ra rb filler : Byte) : Statement (.lte ra rb filler) := fun m hm _ rest => by
  simp [encode, decode, decodeTag_opcodeByte m hm .lte (by decide), decodeOperands]

theorem illegal (op : Byte) : Statement (.illegal op) := fun m hm hw rest => by
  have ht := (decodeTag_eq_illegal_iff m hm op).2 (by simpa [Instr.wellFormed] using hw)
  simp [encode, decode, ht, decodeOperands]

end RoundTrip

/-! ### The length of an encoded instruction -/

namespace EncodeLength

/-- An instruction's bytes are as many as its tag says (30_encoding.md R55). -/
def Statement (i : Instr) : Prop := ∀ m : List Tag, (encode m i).length = i.tag.length

theorem halt : Statement .halt := fun _ => rfl
theorem load (rd : Byte) (imm : Imm16) : Statement (.load rd imm) := fun _ => rfl
theorem add (rs1 rs2 rd : Byte) : Statement (.add rs1 rs2 rd) := fun _ => rfl
theorem sub (rs1 rs2 rd : Byte) : Statement (.sub rs1 rs2 rd) := fun _ => rfl
theorem mul (rs1 rs2 rd : Byte) : Statement (.mul rs1 rs2 rd) := fun _ => rfl
theorem div (rs1 rs2 rd : Byte) : Statement (.div rs1 rs2 rd) := fun _ => rfl
theorem eq (ra rb filler : Byte) : Statement (.eq ra rb filler) := fun _ => rfl
theorem neq (ra rb filler : Byte) : Statement (.neq ra rb filler) := fun _ => rfl
theorem jmp (rr : Byte) : Statement (.jmp rr) := fun _ => rfl
theorem jmpForward (rr : Byte) : Statement (.jmpForward rr) := fun _ => rfl
theorem jmpBackward (rr : Byte) : Statement (.jmpBackward rr) := fun _ => rfl
theorem gt (ra rb filler : Byte) : Statement (.gt ra rb filler) := fun _ => rfl
theorem gte (ra rb filler : Byte) : Statement (.gte ra rb filler) := fun _ => rfl
theorem lt (ra rb filler : Byte) : Statement (.lt ra rb filler) := fun _ => rfl
theorem lte (ra rb filler : Byte) : Statement (.lte ra rb filler) := fun _ => rfl
theorem illegal (op : Byte) : Statement (.illegal op) := fun _ => rfl

end EncodeLength

end Sys2Proof.Laws
end

