-- ==== Sys2Proof/Tests/Slice0.lean ====
section
/-! SUPPORT. Tests of single definitions and single steps, with results taken from the tables of
95_test_vectors.md and the worked examples of the instruction rules; and, for each statement of
Certificates/Slice0/Obligations.lean with hypotheses, a witness that meets them. -/

namespace Sys2Proof.Tests

open Sys2Proof.Machine

/-! ### Fixtures -/

/-- An engine after Load program. -/
def loaded (bytes : List Byte) : State := { State.reset with program := Memory.ofBytes bytes }

/-- A running engine with a valid header before these bytes, its Start event emitted. -/
def running (bytes : List Byte) (pc : Word) : State :=
  { loaded (magic ++ bytes) with
    pc := pc
    runState := .running
    events := [State.reset.stamp .start Config.startReason] }

/-- That engine with `x[0] = a` and `x[1] = b`. -/
def withRegs (bytes : List Byte) (pc : Word) (a b : Int) : State :=
  { running bytes pc with
    x := ((Vector.replicate 32 0).set 0 (BitVec.ofInt 32 a)).set 1 (BitVec.ofInt 32 b) }

/-- The parameters with the alternatives chosen. -/
def alternatives : Config :=
  { standardConfig with fpBankReachable := true, loadImmSigned := true, overflowPolicy := .crash }

/-- An engine at offset 8 built with the alternatives. -/
def alternative (a b : Int) : State := { withRegs [] 8 a b with config := alternatives }

/-- What a test looks at in a next state. -/
def look {α : Type} (f : State → α) : Host.Outcome State Fault Refusal → Option α
  | .next s => some (f s)
  | .fault _ => none
  | .refused _ => none

/-- The tag and reason of the last event. -/
def lastEvent (s : State) : Option (EventTag × Nat) := s.events.getLast?.map fun e => (e.tag, e.reason)

/-! ### Well-formedness -/

theorem test_illegal_needs_a_byte_from_fifteen :
    (Instr.illegal 14).wellFormed = false ∧ (Instr.illegal 15).wellFormed = true := by decide

theorem test_opcode_map_names_each_operation_once :
    ¬ OpcodeMapWF (Tag.halt :: standardOpcodeMap.tail.dropLast ++ [.halt]) ∧
      ¬ OpcodeMapWF (standardOpcodeMap.dropLast ++ [.illegal]) ∧ OpcodeMapWF standardOpcodeMap := by decide

/-! ### Decoding (30_encoding.md R53, R58, R70) -/

theorem test_decode_halt : decode standardOpcodeMap [0x00] = .ok (.halt, []) := by decide
theorem test_decode_load :
    decode standardOpcodeMap [0x01, 0x05, 0x12, 0x34] = .ok (.load 5 0x1234, []) := by decide
theorem test_decode_add : decode standardOpcodeMap [0x02, 0x00, 0x01, 0x02] = .ok (.add 0 1 2, []) := by decide
theorem test_decode_sub : decode standardOpcodeMap [0x03, 0x01, 0x00, 0x02] = .ok (.sub 1 0 2, []) := by decide
theorem test_decode_mul : decode standardOpcodeMap [0x04, 0x00, 0x00, 0x01] = .ok (.mul 0 0 1, []) := by decide
theorem test_decode_div : decode standardOpcodeMap [0x05, 0x02, 0x04, 0x05] = .ok (.div 2 4 5, []) := by decide
theorem test_decode_eq : decode standardOpcodeMap [0x06, 0x00, 0x01, 0xFF] = .ok (.eq 0 1 0xFF, []) := by decide
theorem test_decode_neq : decode standardOpcodeMap [0x07, 0x00, 0x01, 0x00] = .ok (.neq 0 1 0, []) := by decide
theorem test_decode_jmp :
    decode standardOpcodeMap [0x08, 0x02, 0x00, 0x00] = .ok (.jmp 2, [0x00, 0x00]) := by decide
theorem test_decode_jmpForward : decode standardOpcodeMap [0x09, 0x05] = .ok (.jmpForward 5, []) := by decide
theorem test_decode_jmpBackward : decode standardOpcodeMap [0x0A, 0x05] = .ok (.jmpBackward 5, []) := by decide
theorem test_decode_gt : decode standardOpcodeMap [0x0B, 0x03, 0x01, 0x00] = .ok (.gt 3 1 0, []) := by decide
theorem test_decode_gte : decode standardOpcodeMap [0x0C, 0x00, 0x01, 0x00] = .ok (.gte 0 1 0, []) := by decide
theorem test_decode_lt : decode standardOpcodeMap [0x0D, 0x02, 0x04, 0x00] = .ok (.lt 2 4 0, []) := by decide
theorem test_decode_lte : decode standardOpcodeMap [0x0E, 0x00, 0x01, 0x00] = .ok (.lte 0 1 0, []) := by decide
theorem test_decode_illegal :
    decode standardOpcodeMap [0x0F] = .ok (.illegal 0x0F, []) ∧
      decode standardOpcodeMap [0xFF, 0x00] = .ok (.illegal 0xFF, [0x00]) := by decide
theorem test_decode_truncated :
    decode standardOpcodeMap [0x0D, 0x00, 0x01] = .error (.truncated .lt) ∧
      decode standardOpcodeMap [0x08] = .error (.truncated .jmp) ∧
      decode standardOpcodeMap [] = .error .noByte := by decide

/-- The second byte of a table word is its bits 15 to 8. -/
theorem test_decodeTableWord :
    decodeTableWord 32 0x34120501 = some (.load 5 0x1234) ∧ decodeTableWord 8 0x0A = some (.jmpBackward 0) ∧
      decodeTableWord 8 0x80 = some (.illegal 0x80) := by decide

/-! ### Instructions (95_test_vectors.md, sections 1 and 2) -/

theorem test_halt :
    look (fun s => (s.runState, s.pc, lastEvent s)) (exec .halt (running [] 4))
      = some (.haltedOk, 5, some (.gracefulStop, 0)) := by decide
theorem test_illegal :
    look (fun s => (s.runState, s.pc, lastEvent s)) (exec (.illegal 0xFE) (running [] 4))
      = some (.crashed, 5, some (.crash, 3)) := by decide

theorem test_load_is_zero_extended_by_default :
    look (fun s => ((s.readReg 5).toInt, s.pc)) (exec (.load 5 0xFFFF) (running [] 4)) = some (65535, 8) ∧
      look (fun s => (s.readReg 5).toInt) (exec (.load 5 0x8000) (alternative 0 0)) = some (-32768) := by decide
theorem test_load_to_a_bad_index_changes_no_register :
    look (fun s => (decide (s.x = State.reset.x), s.pc)) (exec (.load 32 7) (running [] 4))
      = some (true, 8) := by decide

theorem test_add_wraps :
    look (fun s => (s.readReg 2).toInt) (exec (.add 0 1 2) (withRegs [] 4 2147483647 1))
      = some (-2147483648) := by decide
theorem test_add_overflow_crashes_under_the_crash_policy :
    look (fun s => (lastEvent s, s.pc, s.readReg 2)) (exec (.add 0 1 2) (alternative 2147483647 1))
      = some (some (.crash, 5), 12, 0) := by decide
theorem test_sub_is_source_one_minus_source_two :
    look (fun s => (s.readReg 2).toInt) (exec (.sub 0 1 2) (withRegs [] 4 5 7)) = some (-2) := by decide
theorem test_sub_in_range_completes_under_the_crash_policy :
    look (fun s => (s.readReg 0).toInt) (exec (.sub 0 0 0) (alternative 3 0)) = some 0 := by decide
theorem test_mul_keeps_the_low_word :
    look (fun s => (s.readReg 2).toInt) (exec (.mul 0 1 2) (withRegs [] 4 65535 65535))
      = some (-131071) := by decide
theorem test_mul_by_a_bad_index_is_zero :
    look (fun s => (s.readReg 0).toInt) (exec (.mul 0 40 0) (withRegs [] 4 12345 9)) = some 0 := by decide
theorem test_div_rounds_toward_zero :
    look (fun s => ((s.readReg 0).toInt, s.rem.toInt)) (exec (.div 0 1 0) (withRegs [] 4 (-7) 2))
      = some (-3, -1) ∧
    look (fun s => ((s.readReg 2).toInt, s.rem.toInt)) (exec (.div 0 1 2) (withRegs [] 4 7 (-2)))
      = some (-3, 1) := by decide
theorem test_div_corners :
    look (fun s => ((s.readReg 2).toInt, s.rem.toInt)) (exec (.div 0 1 2) (withRegs [] 4 (-2147483648) (-1)))
      = some (-2147483648, 0) ∧
    look (fun s => (lastEvent s, s.pc)) (exec (.div 0 40 2) (withRegs [] 4 9 9))
      = some (some (.crash, 4), 8) := by decide

theorem test_equality_comparisons :
    look (fun s => s.flag) (exec (.eq 0 1 0xFF) (withRegs [] 4 5 5)) = some true ∧
      look (fun s => s.flag) (exec (.neq 0 1 0) (withRegs [] 4 5 5)) = some false := by decide
theorem test_order_comparisons_are_signed :
    look (fun s => s.flag) (exec (.gt 0 1 0) (withRegs [] 4 (-1) 0)) = some false ∧
      look (fun s => s.flag) (exec (.gte 0 1 0) (withRegs [] 4 9 9)) = some true ∧
      look (fun s => s.flag) (exec (.lt 0 1 0) (withRegs [] 4 (-1) 0)) = some true ∧
      look (fun s => s.flag) (exec (.lte 0 1 0) (withRegs [] 4 10 9)) = some false := by decide

theorem test_jmp :
    look (fun s => s.pc.toNat) (exec (.jmp 0) (withRegs [] 8 16 0)) = some 16 ∧
      look (fun s => s.pc.toNat) (exec (.jmp 0) (withRegs [] 8 (-1) 0)) = some 4294967295 := by decide
theorem test_jmpForward : look (fun s => s.pc.toNat) (exec (.jmpForward 0) (withRegs [] 8 6 0)) = some 16 := by decide
theorem test_jmpBackward :
    look (fun s => s.pc.toNat) (exec (.jmpBackward 0) (withRegs [] 16 10 0)) = some 8 ∧
      look (fun s => s.pc.toNat) (exec (.jmpBackward 0) (withRegs [] 8 11 0)) = some 4294967295 := by decide

theorem test_fp_index_is_refused_when_the_bank_is_reachable :
    exec (.jmp 63) (alternative 0 0) = .refused .fpBankSemantics ∧
      look (fun s => s.pc) (exec (.jmp 64) (alternative 0 0)) = some 0 := ⟨rfl, by decide⟩

/-! ### Steps (95_test_vectors.md, sections 1 and 2.2) -/

theorem test_wrong_header :
    look (fun s => (s.pc, s.runState, lastEvent s, s.events.length))
      (step (loaded [0x4E, 0x53, 0x4B, 0x50, 1, 0, 0, 5])) = some (0, .crashed, some (.crash, 1), 2) := by decide
theorem test_short_buffer :
    look (fun s => (s.pc, lastEvent s)) (step (loaded [0xFF, 0xFF])) = some (0, some (.crash, 2)) ∧
      look (fun s => (s.pc, lastEvent s)) (step State.reset) = some (0, some (.crash, 2)) := by decide
theorem test_header_alone :
    look (fun s => (s.pc, s.runState)) (step (loaded magic)) = some (4, .running) ∧
      look (fun s => (s.pc, lastEvent s)) (step (running [] 4)) = some (4, some (.gracefulStop, 1)) := by decide
theorem test_truncated_div_is_crash_two :
    look (fun s => (s.pc, lastEvent s)) (step (running [5, 0, 1] 4)) = some (5, some (.crash, 2)) := by decide
theorem test_illegal_at_the_last_offset :
    look (fun s => (s.pc, lastEvent s)) (step (running [1, 0, 0, 1, 0xFF] 8)) = some (9, some (.crash, 3)) := by
  decide
theorem test_step_load :
    look (fun s => ((s.readReg 0).toInt, s.pc)) (step (running [1, 0, 0, 0x1E, 0] 4)) = some (30, 8) := by decide
theorem test_withFetchWord_runs_the_word :
    look (fun s => ((s.readReg 5).toInt, s.pc)) (step (State.reset.withFetchWord 32 0x34120501))
      = some (0x1234, 8) ∧
    look (fun s => s.runState) (step (State.reset.withFetchWord 8 0)) = some .haltedOk := by decide

/-! ### Witnesses of the statements' hypotheses -/

theorem standardConfig_legal : standardConfig.WellFormed := by decide
theorem alternatives_legal : alternatives.WellFormed := by decide

theorem running_inv (bytes : List Byte) (pc : Word) (h : bytes.length ≤ 100) : (running bytes pc).Inv where
  programCanonical := Memory.ofBytes_wf _
  programFits := by
    have : (magic ++ bytes).length = bytes.length + 4 := by simp [magic]
    show (magic ++ bytes).length ≤ 2 ^ 31
    omega
  configLegal := standardConfig_legal
  fpZero := rfl
  logFits := rfl
  stamped := by simp [running, State.stamp, loaded]
  headerSeen := fun _ => (Memory.window_of_bytes (Memory.ofBytes (magic ++ bytes)) 0 magic
    (fun k hk => by rw [Nat.zero_add, Memory.read_ofBytes, List.getElem?_append_left hk]) 4 (by decide)).trans rfl
  fresh := fun hr => by cases hr

theorem witness_DecodeOfEncodeIsIdentity :
    OpcodeMapWF standardOpcodeMap ∧ (Instr.illegal 15).wellFormed = true := by decide
theorem witness_EncodeOfDecodeIsIdentity :
    OpcodeMapWF standardOpcodeMap ∧ decode standardOpcodeMap [0, 7] = .ok (.halt, [7]) := by decide
theorem witness_LengthIsAFunctionOfTheTag : decode standardOpcodeMap [15] = .ok (.illegal 15, []) := by decide
theorem witness_BytesFromFifteenAreIllegal :
    (running [15] 4).config.WellFormed ∧ (running [15] 4).runState = .running ∧
      (running [15] 4).program.read (running [15] 4).pc.toNat = some 15 ∧ 15 ≤ (15 : Byte).toNat := by decide
theorem witness_CanonicalBuffersAreEqual :
    (Memory.ofBytes [1, 0, 2]).wf ∧ (Memory.mk [(0, 1), (2, 2)] 3).wf ∧
      (Memory.ofBytes [1, 0, 2]).length = (Memory.mk [(0, 1), (2, 2)] 3).length := by decide
theorem witness_RegisterReadAfterWrite : 31 < (32 : Byte).toNat := by decide
theorem witness_ConstructedState :
    State.reset = State.construct Config.engineIdentity Config.parallelUnits standardConfig := rfl
theorem witness_ConstructedStateHasInvariant : standardConfig.WellFormed ∧ alternatives.WellFormed := by decide
theorem witness_LoadKeepsInvariant : hostLoad magic State.reset = .next (loaded magic) := rfl
theorem witness_HostOperationsAnswer :
    State.reset.runState = .notStarted ∧ (List.replicate (2 ^ 31) (0 : Byte)).length ≤ 2 ^ 31 ∧
      2 ^ 31 < (List.replicate (2 ^ 31 + 1) (0 : Byte)).length ∧ (running [] 4).runState ≠ .notStarted ∧
      ((running [] 4).enter .crashed).runState ∈ [RunState.haltedOk, .endOfProgram, .crashed] ∧
      (running [] 4).runState ∈ [RunState.notStarted, .running] := by
  refine ⟨rfl, ?_, ?_, by decide, by decide, by decide⟩
  · rw [List.length_replicate]
  · rw [List.length_replicate]; omega
theorem witness_HeaderAccepted :
    (loaded magic).runState = .notStarted ∧ (loaded magic).program.read 0 = some 78 ∧
      (loaded magic).program.read 1 = some 83 ∧ (loaded magic).program.read 2 = some 75 ∧
      (loaded magic).program.read 3 = some 79 ∧ (loaded magic).program.length = 4 ∧
      look State.runState (step (loaded magic)) = some .running ∧ (loaded magic).runState ≠ .running := by decide
theorem witness_HeaderRejected :
    (loaded [78, 83, 75]).runState = .notStarted ∧ (loaded [78, 83, 75]).program.length < 4 ∧
      (loaded [78, 83, 75, 80]).runState = .notStarted ∧ 4 ≤ (loaded [78, 83, 75, 80]).program.length ∧
      (loaded [78, 83, 75, 80]).program.read 3 ≠ some 79 := by decide
theorem witness_StepRunsDecodedInstruction :
    (running [8, 1] 4).runState = .running ∧ (running [8, 1] 4).pc.toNat < (running [8, 1] 4).program.length ∧
      (running [8, 1] 4).fetch = .ok (.jmp 1, []) := by decide
theorem witness_StepRunsEncodedBytes :
    (running [8, 1] 4).config.WellFormed ∧ (running [8, 1] 4).runState = .running ∧
      (Instr.jmp 1).wellFormed = true ∧ ∀ k, k < (encode (running [8, 1] 4).config.opcodeMap (.jmp 1)).length →
        (running [8, 1] 4).program.read ((running [8, 1] 4).pc.toNat + k)
          = (encode (running [8, 1] 4).config.opcodeMap (.jmp 1))[k]? := by decide
theorem witness_PcPastTheEndStops :
    (running [0] 5).runState = .running ∧ (running [0] 5).program.length = (running [0] 5).pc.toNat ∧
      look State.runState (step (running [0] 5)) = some .endOfProgram := by decide
theorem witness_IllegalByteCrashes :
    (running [0xFE] 4).runState = .running ∧
      (running [0xFE] 4).program.read (running [0xFE] 4).pc.toNat = some 0xFE ∧
      decodeTag (running [0xFE] 4).config.opcodeMap 0xFE = .illegal := by decide
theorem witness_TruncatedInstructionCrashes :
    (running [6, 0, 1] 4).runState = .running ∧
      (running [6, 0, 1] 4).program.read (running [6, 0, 1] 4).pc.toNat = some 6 ∧
      decodeTag (running [6, 0, 1] 4).config.opcodeMap 6 ≠ .illegal ∧
      (running [6, 0, 1] 4).program.length
        < (running [6, 0, 1] 4).pc.toNat + (decodeTag (running [6, 0, 1] 4).config.opcodeMap 6).length := by decide
theorem witness_SequentialAdvanceDoesNotWrap :
    (running [8, 1] 4).Inv ∧ (running [8, 1] 4).pc.toNat < (running [8, 1] 4).program.length ∧
      (running [8, 1] 4).fetch = .ok (.jmp 1, []) := ⟨running_inv _ _ (by decide), by decide, by decide⟩
theorem witness_StepKeepsInvariant :
    (running [0] 4).Inv ∧ step (running [0] 4) = .next (((running [0] 4).advance 1).stop .gracefulHalt) :=
  ⟨running_inv _ _ (by decide), rfl⟩
theorem witness_RunEmitsStartThenOneTerminalEvent :
    standardConfig.WellFormed ∧ hostLoad magic State.reset = .next (loaded magic) ∧
      runSteps (0 + 1) (loaded magic) = .next (startRun (loaded magic)) ∧
      runSteps (1 + 1) (loaded magic) = .next ((startRun (loaded magic)).stop .endOfProgram) :=
  ⟨standardConfig_legal, rfl, rfl, rfl⟩
theorem witness_TerminalStateIsFinal :
    ((running [] 4).stop .endOfProgram).runState ∈ [RunState.haltedOk, .endOfProgram, .crashed] := by decide
theorem witness_EngineAlwaysStepsUntilTheEnd :
    (running [0] 4).config.fpBankReachable = false ∧ (running [0] 4).runState.isTerminal = false ∧
      step ((running [] 4).stop .endOfProgram) = .fault .runOver ∧
      step { running [8, 32] 4 with config := alternatives } = .refused .fpBankSemantics :=
  ⟨rfl, rfl, rfl, rfl⟩
theorem witness_EventsAreAppendOnly :
    step (running [8, 1] 4) = .next ((running [8, 1] 4).setPc 0) ∧ (running [8, 1] 4).runState = .running ∧
      look (fun s => s.runState.isTerminal) (step (running [0] 4)) = some true ∧
      step (loaded magic) = .next (startRun (loaded magic)) ∧ (startRun (loaded magic)).runState = .running ∧
      (startRun (loaded [])).runState.isTerminal = true := ⟨rfl, rfl, by decide, rfl, by decide, by decide⟩
theorem witness_StepKeepsWhatConstructionFixed :
    step (running [8, 1] 4) = .next ((running [8, 1] 4).setPc 0) := rfl
theorem witness_WritersOfEachRegister :
    look (fun s => (decide (s.x = State.reset.x), s.rem)) (exec (.div 0 1 2) (withRegs [] 4 7 2))
      = some (false, 1) ∧ look State.flag (exec (.eq 0 1 0) (running [] 4)) = some true := by decide
theorem witness_CrashIsPrecise :
    (running [15] 4).runState = .running ∧
      step (running [15] 4) = .next (((running [15] 4).advance 1).crash .unknownOpcode) ∧
      (((running [15] 4).advance 1).crash .unknownOpcode).runState = .crashed := ⟨rfl, rfl, rfl⟩
theorem witness_HostDrawsDoNotInfluenceAStep :
    (State.construct 1 8 standardConfig).erase = (State.construct 2 4 standardConfig).erase := rfl
theorem witness_EnginesRunningOneProgramAgree :
    standardConfig.WellFormed ∧ look (fun _ => ()) (hostLoad magic (State.construct 1 8 standardConfig)) = some () ∧
      look (fun _ => ()) (hostLoad magic (State.construct 2 4 standardConfig)) = some () := by decide
theorem witness_TerminationPrimitives :
    (running [0] 4).runState = .running ∧
      look (fun s => s.runState.isTerminal) (step (running [0] 4)) = some true := by decide
theorem witness_FpIndicesAreRefusedOnlyWhenReachable :
    (alternative 0 0).RegsUsable (Instr.add 31 64 255).regs ∧ (alternative 0 0).config.fpBankReachable = true ∧
      (32 : Byte) ∈ (Instr.load 32 0).regs ∧ 32 ≤ (32 : Byte).toNat ∧ (63 : Byte) ∈ (Instr.jmp 63).regs ∧
      (63 : Byte).toNat ≤ 63 := by
  unfold State.RegsUsable
  decide
theorem witness_HaltStopsTheRun :
    (running [0] 4).config.WellFormed ∧ (running [0] 4).runState = .running ∧
      (running [0] 4).program.read (running [0] 4).pc.toNat
        = some (opcodeByte (running [0] 4).config.opcodeMap .halt) := by decide
theorem witness_IllegalCrashesTheRun :
    (running [255] 4).config.WellFormed ∧ (running [255] 4).runState = .running ∧
      (running [255] 4).program.read (running [255] 4).pc.toNat = some 255 ∧ 15 ≤ (255 : Byte).toNat := by decide
theorem witness_LoadWritesTheImmediate :
    (running [] 4).RegsUsable [31] ∧ (running [] 4).config.loadImmSigned = false ∧
      (alternative 0 0).RegsUsable [64] ∧ (alternative 0 0).config.loadImmSigned = true := by
  unfold State.RegsUsable
  decide
theorem witness_AddWritesTheSum :
    (alternative 2147483646 1).RegsUsable [0, 1, 31] ∧
      (alternative 2147483646 1).ResultKept
        (((alternative 2147483646 1).readReg 0).toInt + ((alternative 2147483646 1).readReg 1).toInt) := by
  unfold State.RegsUsable State.ResultKept
  decide
theorem witness_SubWritesTheDifference :
    (alternative (-2147483647) 1).RegsUsable [0, 1, 31] ∧
      (alternative (-2147483647) 1).ResultKept
        (((alternative (-2147483647) 1).readReg 0).toInt - ((alternative (-2147483647) 1).readReg 1).toInt) := by
  unfold State.RegsUsable State.ResultKept
  decide
theorem witness_MulWritesTheLowProduct :
    (withRegs [] 4 65536 65536).RegsUsable [0, 1, 31] ∧
      (withRegs [] 4 65536 65536).ResultKept
        (((withRegs [] 4 65536 65536).readReg 0).toInt * ((withRegs [] 4 65536 65536).readReg 1).toInt) ∧
      (alternative 46340 46340).ResultKept
        (((alternative 46340 46340).readReg 0).toInt * ((alternative 46340 46340).readReg 1).toInt) := by
  unfold State.RegsUsable State.ResultKept
  decide
theorem witness_DivWritesQuotientAndRemainder :
    (withRegs [] 4 (-2147483648) (-1)).RegsUsable [0, 1, 31] ∧
      ((withRegs [] 4 (-2147483648) (-1)).readReg 0).toInt = -2 ^ 31 ∧
      ((withRegs [] 4 (-2147483648) (-1)).readReg 1).toInt = -1 ∧
      (withRegs [] 4 (-2147483648) (-1)).config.overflowPolicy = .wrap ∧
      (alternative (-2147483648) 1).RegsUsable [0, 1, 31] ∧ ((alternative (-2147483648) 1).readReg 1).toInt = 1 := by
  unfold State.RegsUsable
  decide
theorem witness_DivByZeroCrashes :
    (withRegs [] 4 9 0).RegsUsable [0, 1, 2] ∧ (withRegs [] 4 9 0).readReg 1 = 0 ∧
      (withRegs [] 4 9 0).RegsUsable [0, 32, 2] ∧ 31 < (32 : Byte).toNat := by
  unfold State.RegsUsable
  decide
theorem witness_OverflowCrashesUnderTheCrashPolicy :
    (alternative 2147483647 1).RegsUsable [0, 1, 2] ∧ (alternative 2147483647 1).config.overflowPolicy = .crash ∧
      ((alternative 2147483647 1).readReg 0).toInt + ((alternative 2147483647 1).readReg 1).toInt = 2 ^ 31 ∧
      ((alternative (-2147483648) 1).readReg 0).toInt - ((alternative (-2147483648) 1).readReg 1).toInt
        = -2 ^ 31 - 1 ∧
      ((alternative 65536 32768).readReg 0).toInt * ((alternative 65536 32768).readReg 1).toInt = 2 ^ 31 ∧
      ((alternative (-2147483648) (-1)).readReg 0).toInt = -2 ^ 31 ∧
      ((alternative (-2147483648) (-1)).readReg 1).toInt = -1 := by
  unfold State.RegsUsable
  decide
theorem witness_EqualityComparisonsSetTheFlag : (running [] 4).RegsUsable [0, 255] := by
  unfold State.RegsUsable
  decide
theorem witness_OrderComparisonsSetTheFlag : (alternative 0 0).RegsUsable [31, 64] := by
  unfold State.RegsUsable
  decide
theorem witness_JmpSetsPc : (running [] 4).RegsUsable [32] := by
  unfold State.RegsUsable
  decide
theorem witness_JmpForwardAddsToPc : (alternative 0 0).RegsUsable [31] := by
  unfold State.RegsUsable
  decide
theorem witness_JmpBackwardSubtractsFromPc : (alternative 0 0).RegsUsable [64] := by
  unfold State.RegsUsable
  decide
theorem witness_NegativeJmpEndsTheProgram :
    ((running [8, 0] 4).writeReg 0 0x80000000).Inv ∧
      ((running [8, 0] 4).writeReg 0 0x80000000).runState = .running ∧
      (((running [8, 0] 4).writeReg 0 0x80000000).readReg 0).toInt < 0 ∧
      exec (.jmp 0) ((running [8, 0] 4).writeReg 0 0x80000000)
        = .next (((running [8, 0] 4).writeReg 0 0x80000000).setPc 0x80000000) :=
  ⟨{ running_inv [8, 0] 4 (by decide) with fresh := fun h => by cases h }, rfl, by decide, rfl⟩
theorem witness_PcInTheHeaderCrashes :
    (running [] 3).Inv ∧ (running [] 3).runState = .running ∧ (running [] 3).pc.toNat < 4 :=
  ⟨running_inv _ _ (by decide), rfl, by decide⟩

/-- Each of the three jumps to itself. -/
theorem witness_JumpToItselfNeverEnds :
    (withRegs [8, 0] 4 4 0).config.WellFormed ∧ (withRegs [8, 0] 4 4 0).runState = .running ∧
      (withRegs [8, 0] 4 4 0).config.fpBankReachable = false ∧
      (withRegs [8, 0] 4 4 0).readReg 0 = (withRegs [8, 0] 4 4 0).pc ∧
      ((withRegs [9, 0] 4 (-2) 0).readReg 0).toInt = -2 ∧ ((withRegs [10, 0] 4 2 0).readReg 0).toInt = 2 ∧
      (∀ k, k < 2 → (withRegs [8, 0] 4 4 0).program.read (4 + k) = (encode standardOpcodeMap (.jmp 0))[k]?) ∧
      (∀ k, k < 2 →
        (withRegs [9, 0] 4 (-2) 0).program.read (4 + k) = (encode standardOpcodeMap (.jmpForward 0))[k]?) ∧
      ∀ k, k < 2 →
        (withRegs [10, 0] 4 2 0).program.read (4 + k) = (encode standardOpcodeMap (.jmpBackward 0))[k]? := by decide

end Sys2Proof.Tests
end

section
/-! The encoding family (30_encoding.md): how many bytes the decoder consumes (R55), and which bytes are
Illegal and what a fetched one does (R54). -/

namespace Sys2Proof.Proofs.Encoding

open Sys2Proof.Machine

/-! ### What the decoder reads -/

/-- Each branch of the decoder that answers reads an instruction of the tag it was given, and takes as many
operand bytes as the tag's length leaves after the opcode byte. -/
theorem decodeOperands_ok {t : Tag} {op : Byte} {bytes rest : List Byte} {i : Instr}
    (h : decodeOperands t op bytes = .ok (i, rest)) :
    i.tag = t ∧ bytes.length + 1 = rest.length + t.length := by
  unfold decodeOperands at h
  split at h
  -- The last branch: an operand byte is missing.
  case h_17 => cases h
  all_goals
    cases h
    exact ⟨rfl, rfl⟩

/-- What decodes begins with an opcode byte that names the instruction's tag, and is as much longer than the
bytes left over as the tag says (R55). -/
theorem decode_ok {m : List Tag} {bytes rest : List Byte} {i : Instr} (h : decode m bytes = .ok (i, rest)) :
    ∃ op operands, bytes = op :: operands ∧ decodeTag m op = i.tag ∧
      bytes.length = i.tag.length + rest.length := by
  cases bytes with
  | nil => cases h
  | cons op operands =>
    obtain ⟨htag, hlen⟩ := decodeOperands_ok h
    refine ⟨op, operands, rfl, htag.symm, ?_⟩
    rw [List.length_cons, htag, hlen, Nat.add_comm]

/-! ### A fetched byte -/

/-- A byte that is read lies below the end of the buffer (20_memory.md R44). -/
theorem lt_length_of_read {p : Memory} {a : Nat} {b : Byte} (h : p.read a = some b) : a < p.length := by
  by_contra hge
  rw [(p.read_eq_none_iff a).2 (Nat.le_of_not_lt hge)] at h
  cases h

/-- The instruction fetched is the one that the byte at `pc` names. -/
theorem fetch_of_read {s : State} {op : Byte} (h : s.program.read s.pc.toNat = some op) :
    s.fetch = decodeOperands (decodeTag s.config.opcodeMap op) op (s.program.window (s.pc.toNat + 1) 3) := by
  have hlt := lt_length_of_read h
  have hop : lookupCell s.program.cells s.pc.toNat = op := by simpa [Memory.read_of_lt _ _ hlt] using h
  rw [s.fetch_of_lt hlt, hop]

/-- An instruction fetched whole is what a running engine executes (40_run_loop.md R76, R77). -/
theorem step_of_fetch {s : State} {i : Instr} {rest : List Byte} (hr : s.runState = .running)
    (hlt : s.pc.toNat < s.program.length) (hf : s.fetch = .ok (i, rest)) : step s = exec i s := by
  simp [step, hr, iterate, Nat.not_le.2 hlt, hf]

/-- A fetched Illegal byte crashes the run, whatever bytes follow it (40_run_loop.md R78). -/
theorem step_of_illegal_byte {s : State} {op : Byte} (hr : s.runState = .running)
    (hread : s.program.read s.pc.toNat = some op) (hill : decodeTag s.config.opcodeMap op = .illegal) :
    step s = .next ((s.advance 1).crash .unknownOpcode) := by
  have hf : s.fetch = .ok (.illegal op, s.program.window (s.pc.toNat + 1) 3) := by
    rw [fetch_of_read hread, hill]
    rfl
  exact step_of_fetch hr (lt_length_of_read hread) hf

/-- The four header bytes are above the opcodes of the operations (R54, R57). -/
theorem fifteen_le_of_mem_magic : ∀ op ∈ magic, 15 ≤ op.toNat := by decide

/-! ### The statements -/

/-- Settles O4: the decoder's branches, one for each tag, take the bytes of R55. -/
theorem lengthIsAFunctionOfTheTag : Obligations.LengthIsAFunctionOfTheTag := by
  refine ⟨fun m bytes rest i h => ?_, rfl, rfl, by decide, by decide, by decide, rfl⟩
  obtain ⟨op, operands, rfl, htag, hlen⟩ := decode_ok h
  exact ⟨hlen, congrArg some htag⟩

/-- Settles O5: a legal map names an operation for the bytes below 15 alone, and a fetched Illegal byte crashes
the run. -/
theorem bytesFromFifteenAreIllegal : Obligations.BytesFromFifteenAreIllegal := by
  refine ⟨fun m hm => ⟨Laws.decodeTag_eq_illegal_iff m hm, fun op hop => ?_⟩, fun s op hc hr hread hop => ?_⟩
  · exact (Laws.decodeTag_eq_illegal_iff m hm op).2 (fifteen_le_of_mem_magic op hop)
  · have hill := (Laws.decodeTag_eq_illegal_iff _ hc op).2 hop
    exact ⟨_, step_of_illegal_byte hr hread hill, rfl, State.crash_logShape _⟩

end Sys2Proof.Proofs.Encoding
end

section
/-! The run-loop family (40_run_loop.md): the bounds check (R75) and the fetched Illegal byte (R78). -/

namespace Sys2Proof.Proofs.RunLoop

open Sys2Proof.Machine

variable {s t : State}

/-! ### The end of the program -/

/-- The bounds check of a running engine comes before anything is fetched (R75). -/
theorem step_of_pc_past_end (hr : s.runState = .running) (hpc : s.program.length ≤ s.pc.toNat) :
    step s = .next (s.stop .endOfProgram) := by
  simp [step, hr, iterate, hpc]

/-- No instruction ends the program: a running engine goes on running, halts, or crashes. -/
theorem effect_runState_ne_endOfProgram (hr : s.runState = .running) (h : Effect s t) :
    t.runState ≠ .endOfProgram := by
  cases h with
  | goesOn pc x rem flag => simp [hr]
  | halts pc => simp [StopReason.runState]
  | crashes pc r _ => simp

/-- A running engine reaches the end of the program only through the bounds check: an instruction cut short
crashes, and one fetched whole has one of the effects. -/
theorem pc_past_end_of_step (hr : s.runState = .running) (h : step s = .next t)
    (ht : t.runState = .endOfProgram) : s.program.length ≤ s.pc.toNat := by
  rcases step_next h with ⟨hr', -⟩ | ⟨-, hpc, -⟩ | ⟨-, -, rfl⟩ | ⟨-, -, _, _, -, -, heffect⟩
  · simp [hr] at hr'
  · exact hpc
  · simp at ht
  · exact absurd ht (effect_runState_ne_endOfProgram hr heffect)

/-! ### The statements -/

/-- Settles O17: at or past the end the bounds check stops the run, and no other branch of the step does. -/
theorem pcPastTheEndStops : Obligations.PcPastTheEndStops := by
  refine fun s hr => ⟨fun hpc => ?_, fun t => pc_past_end_of_step hr⟩
  exact ⟨_, step_of_pc_past_end hr hpc, rfl, State.stop_logShape _, rfl⟩

/-- Settles O18: the step is the crash of `Encoding.step_of_illegal_byte`, which moves `pc` past the byte and
ends the run. -/
theorem illegalByteCrashes : Obligations.IllegalByteCrashes := by
  intro s op hr hread hill
  exact ⟨_, Encoding.step_of_illegal_byte hr hread hill, rfl, rfl, State.crash_logShape _, rfl⟩

end Sys2Proof.Proofs.RunLoop
end

section
/-! The exceptions family (60_exceptions.md): a crash is precise (R116). -/

namespace Sys2Proof.Proofs.Exceptions

open Sys2Proof.Machine

variable {s t : State}

/-! ### What a crash is made of -/

/-- An instruction's only effect that ends in Crashed raises its crash after a move of `pc` alone: of the
other two, one leaves the engine running and one halts it. -/
theorem crash_of_effect (hr : s.runState = .running) (h : Effect s t) (ht : t.runState = .crashed) :
    ∃ pc r, t = (s.setPc pc).crash r := by
  cases h with
  | goesOn pc x rem flag => simp [hr] at ht
  | halts pc => simp [StopReason.runState] at ht
  | crashes pc r _ => exact ⟨pc, r, rfl⟩

/-- A step that crashes a running engine raises the crash after a move of `pc` alone, whether the instruction
is cut short (40_run_loop.md R80) or crashes by its own meaning (R81). -/
theorem crash_of_step (hr : s.runState = .running) (h : step s = .next t) (ht : t.runState = .crashed) :
    ∃ pc r, t = (s.setPc pc).crash r := by
  rcases step_next h with ⟨hr', -⟩ | ⟨-, -, rfl⟩ | ⟨-, -, rfl⟩ | ⟨-, -, _, _, -, -, heffect⟩
  · simp [hr] at hr'
  · simp [StopReason.runState] at ht
  · exact ⟨_, _, rfl⟩
  · exact crash_of_effect hr heffect ht

/-! ### The statement -/

/-- Settles O28: the crash of `crash_of_step` touches the run state and the log, and the move before it `pc`. -/
theorem crashIsPrecise : Obligations.CrashIsPrecise := by
  intro s t hr h ht
  obtain ⟨pc, r, rfl⟩ := crash_of_step hr h ht
  rfl

end Sys2Proof.Proofs.Exceptions
end

section
/-! The two round trips between instructions and bytes (30_encoding.md, section 3), and the words of R70. -/

namespace Sys2Proof.Proofs.Codec

open Sys2Proof.Machine

/-- The decoder undoes the encoder, one law for each constructor (R56, R58). -/
theorem decode_encode (i : Instr) : Laws.RoundTrip.Statement i := by
  cases i with
  | halt => exact Laws.RoundTrip.halt
  | load rd imm => exact Laws.RoundTrip.load rd imm
  | add rs1 rs2 rd => exact Laws.RoundTrip.add rs1 rs2 rd
  | sub rs1 rs2 rd => exact Laws.RoundTrip.sub rs1 rs2 rd
  | mul rs1 rs2 rd => exact Laws.RoundTrip.mul rs1 rs2 rd
  | div rs1 rs2 rd => exact Laws.RoundTrip.div rs1 rs2 rd
  | eq ra rb filler => exact Laws.RoundTrip.eq ra rb filler
  | neq ra rb filler => exact Laws.RoundTrip.neq ra rb filler
  | jmp rr => exact Laws.RoundTrip.jmp rr
  | jmpForward rr => exact Laws.RoundTrip.jmpForward rr
  | jmpBackward rr => exact Laws.RoundTrip.jmpBackward rr
  | gt ra rb filler => exact Laws.RoundTrip.gt ra rb filler
  | gte ra rb filler => exact Laws.RoundTrip.gte ra rb filler
  | lt ra rb filler => exact Laws.RoundTrip.lt ra rb filler
  | lte ra rb filler => exact Laws.RoundTrip.lte ra rb filler
  | illegal op => exact Laws.RoundTrip.illegal op

/-- The encoder's bytes are as many as the tag says, one law for each constructor (R55). -/
theorem length_encode (i : Instr) : Laws.EncodeLength.Statement i := by
  cases i <;> exact fun _ => rfl

/-- No instruction is longer than the four bytes a running engine fetches (R55). -/
theorem length_le_maxInstrBytes (t : Tag) : t.length ≤ maxInstrBytes := by
  cases t <;> decide

theorem length_pos (t : Tag) : 0 < t.length := by
  cases t <;> decide

/-- The one check of well-formedness is on the byte of Illegal, and the decoder puts the opcode byte there. -/
theorem wellFormed_of_decodeOperands {t : Tag} {op : Byte} {bytes rest : List Byte} {i : Instr}
    (hop : t = .illegal → 15 ≤ op.toNat) (h : decodeOperands t op bytes = .ok (i, rest)) :
    i.wellFormed = true := by
  unfold decodeOperands at h
  split at h
  -- The last branch: an operand byte is missing.
  case h_17 => cases h
  case h_2 =>
    cases h
    exact decide_eq_true (hop rfl)
  all_goals
    cases h
    rfl

/-- Each branch of the decoder keeps the operand bytes it takes, so that the encoder gives them back after the
opcode byte; the bytes of an immediate are the one pair that is put together and taken apart. -/
theorem encode_of_decodeOperands {m : List Tag} {t : Tag} {op : Byte} {bytes rest : List Byte} {i : Instr}
    (hop : t ≠ .illegal → opcodeByte m t = op) (h : decodeOperands t op bytes = .ok (i, rest)) :
    encode m i ++ rest = op :: bytes := by
  unfold decodeOperands at h
  split at h
  case h_17 => cases h
  case h_2 =>
    cases h
    rfl
  all_goals
    cases h
    simp [encode, hop, Laws.immHi_immOf, Laws.immLo_immOf]

/-! ### The statements -/

/-- Settles O1: the round trip of each instruction. -/
theorem decodeOfEncodeIsIdentity : Obligations.DecodeOfEncodeIsIdentity :=
  fun m hm i => decode_encode i m hm

/-- Settles O2: a byte below 15 is the one that names its operation, and the decoder drops no operand byte. -/
theorem encodeOfDecodeIsIdentity : Obligations.EncodeOfDecodeIsIdentity := by
  intro m hm bytes rest i h
  cases bytes with
  | nil => cases h
  | cons op operands =>
    have hill := Laws.decodeTag_eq_illegal_iff m hm op
    have hop : decodeTag m op ≠ .illegal → opcodeByte m (decodeTag m op) = op := fun hne =>
      Laws.opcodeByte_decodeTag m hm op (Nat.not_le.1 (mt hill.2 hne))
    exact ⟨wellFormed_of_decodeOperands hill.1 h, encode_of_decodeOperands hop h⟩

/-- Settles O3: each word is evaluated. -/
theorem specWordsDecode : Obligations.SpecWordsDecode :=
  ⟨rfl, rfl, rfl, rfl, rfl, rfl, rfl⟩

end Sys2Proof.Proofs.Codec
end

section
/-! The program buffer (20_memory.md) and the integer registers (10_state.md, section 1). -/

namespace Sys2Proof.Proofs.Storage

open Sys2Proof.Machine

/-! ### Canonical buffers -/

/-- In a list of cells with rising offsets and no byte 0, the cells are exactly the offsets that do not read 0,
with what they read. -/
theorem mem_iff_lookupCell {cs : List Host.Cell} (hrise : cs.Pairwise fun c d => c.1 < d.1)
    (hne : ∀ c ∈ cs, c.2 ≠ 0) (c : Host.Cell) : c ∈ cs ↔ c.2 ≠ 0 ∧ lookupCell cs c.1 = c.2 := by
  induction cs with
  | nil => simpa [lookupCell] using fun h e => h e.symm
  | cons d cs ih =>
    obtain ⟨hd, hrise⟩ := List.pairwise_cons.1 hrise
    have hne' : ∀ c ∈ cs, c.2 ≠ 0 := fun c hc => hne c (List.mem_cons_of_mem d hc)
    by_cases hk : d.1 = c.1
    · have hnot : c ∉ cs := fun hc => Nat.ne_of_lt (hd c hc) hk
      simp only [List.mem_cons, hnot, or_false, lookupCell, hk, if_true]
      refine ⟨fun e => ?_, fun ⟨_, e⟩ => Prod.ext hk.symm e.symm⟩
      rw [e]
      exact ⟨hne d List.mem_cons_self, rfl⟩
    · have hcd : c ≠ d := fun e => hk (by rw [e])
      simp only [List.mem_cons, hcd, false_or, lookupCell, hk, if_false]
      exact ih hrise hne'

/-- Lists of cells with rising offsets and the same members are equal. -/
theorem eq_of_mem_iff_of_rising {cs ds : List Host.Cell} (hcs : cs.Pairwise fun c d => c.1 < d.1)
    (hds : ds.Pairwise fun c d => c.1 < d.1) (h : ∀ c, c ∈ cs ↔ c ∈ ds) : cs = ds := by
  have : Std.Antisymm fun c d : Host.Cell => c.1 < d.1 := ⟨fun _ _ h h' => absurd h (Nat.lt_asymm h')⟩
  have : Std.Irrefl fun c d : Host.Cell => c.1 < d.1 := ⟨fun c => Nat.lt_irrefl c.1⟩
  exact hcs.eq_of_mem_iff hds h

/-- An offset outside a canonical buffer is not listed. -/
theorem lookupCell_of_length_le {m : Memory} (hm : m.wf) {a : Nat} (ha : m.length ≤ a) :
    lookupCell m.cells a = 0 :=
  lookupCell_of_forall_ne _ _ fun c hc => Nat.ne_of_lt (Nat.lt_of_lt_of_le (hm.2 c hc).1 ha)

theorem lookupCell_eq_of_read_eq {m n : Memory} (hm : m.wf) (hn : n.wf) (hlen : m.length = n.length)
    (hread : ∀ a, m.read a = n.read a) (a : Nat) : lookupCell m.cells a = lookupCell n.cells a := by
  by_cases ha : a < m.length
  · have := hread a
    rwa [m.read_of_lt a ha, n.read_of_lt a (hlen ▸ ha), Option.some_inj] at this
  · have ha := Nat.not_lt.1 ha
    rw [lookupCell_of_length_le hm ha, lookupCell_of_length_le hn (hlen ▸ ha)]

/-- Canonical buffers that read the same list the same cells, in the same order. -/
theorem cells_eq_of_read_eq {m n : Memory} (hm : m.wf) (hn : n.wf) (hlen : m.length = n.length)
    (hread : ∀ a, m.read a = n.read a) : m.cells = n.cells := by
  have hlookup := lookupCell_eq_of_read_eq hm hn hlen hread
  obtain ⟨hmrise, hmcell⟩ := hm
  obtain ⟨hnrise, hncell⟩ := hn
  refine eq_of_mem_iff_of_rising hmrise hnrise fun c => ?_
  rw [mem_iff_lookupCell hmrise (fun c hc => (hmcell c hc).2),
    mem_iff_lookupCell hnrise (fun c hc => (hncell c hc).2), hlookup]

/-! ### The statements -/

/-- Settles O7: canonical buffers that read the same list the same cells, and the laws of loading. -/
theorem canonicalBuffersAreEqual : Obligations.CanonicalBuffersAreEqual := by
  refine ⟨fun m n hm hn hlen hread => ?_, fun bytes => ⟨Memory.ofBytes_wf bytes, Memory.read_ofBytes bytes⟩⟩
  have hcells := cells_eq_of_read_eq hm hn hlen hread
  cases m
  cases n
  cases hcells
  cases hlen
  rfl

/-- Settles O6: the laws of a read and of a window. -/
theorem noReadBeyondTheBuffer : Obligations.NoReadBeyondTheBuffer :=
  fun m a n => ⟨m.read_eq_none_iff a, m.window_length a n⟩

/-- Settles O8: the laws of the register file. -/
theorem registerReadAfterWrite : Obligations.RegisterReadAfterWrite :=
  fun s b c v => ⟨s.readReg_writeReg b c v, fun hb => ⟨s.readReg_out b hb, s.writeReg_out b v hb⟩⟩

end Sys2Proof.Proofs.Storage
end

section
/-! Construction and the host's operations (70_reset_and_hazards.md, 10_state.md R33). -/

namespace Sys2Proof.Proofs.HostInterface

open Sys2Proof.Machine

variable {s t : State}

/-! ### Construct -/

/-- The register file of a constructed engine reads 0 at every index. -/
theorem construct_readReg (identity units : Nat) (c : Config) (b : Byte) :
    (State.construct identity units c).readReg b = 0 := by
  by_cases hb : b.toNat < 32
  · simp [State.readReg, State.construct, hb]
  · exact State.readReg_out _ b (Nat.not_lt.1 hb)

theorem construct_inv (identity units : Nat) {c : Config} (hc : c.WellFormed) :
    (State.construct identity units c).Inv where
  programCanonical := Memory.ofBytes_wf []
  programFits := Nat.zero_le _
  configLegal := hc
  fpZero := rfl
  logFits := rfl
  stamped := fun _ he => nomatch he
  headerSeen := fun h => nomatch h
  fresh := fun _ => ⟨rfl, rfl, rfl, rfl⟩

theorem standardConfig_wellFormed : standardConfig.WellFormed := List.Perm.refl _

/-! ### Load program -/

/-- When Load program answers, and with what (R128). -/
theorem hostLoad_next {bytes : List Byte} (h : hostLoad bytes s = .next t) :
    s.runState = .notStarted ∧ bytes.length ≤ maxProgramLength ∧
      t = { s with program := Memory.ofBytes bytes } := by
  unfold hostLoad at h
  split at h
  · cases h
  · rename_i hr
    split at h
    · cases h
    · rename_i hlen
      cases h
      exact ⟨not_not.1 hr, Nat.not_lt.1 hlen, rfl⟩

theorem hostLoad_of_notStarted {bytes : List Byte} (hr : s.runState = .notStarted)
    (hlen : bytes.length ≤ maxProgramLength) :
    hostLoad bytes s = .next { s with program := Memory.ofBytes bytes } := by
  simp [hostLoad, hr, hlen]

theorem hostLoad_of_too_long {bytes : List Byte} (hr : s.runState = .notStarted)
    (hlen : maxProgramLength < bytes.length) : hostLoad bytes s = .refused .programTooLong := by
  simp [hostLoad, hr, hlen]

theorem hostLoad_outside (bytes : List Byte) (hr : s.runState ≠ .notStarted) :
    hostLoad bytes s = .refused .loadOutsideNotStarted := by
  simp [hostLoad, hr]

/-- Before the run the clauses of the invariant about a program past the header check do not apply. -/
theorem load_keeps_inv {bytes : List Byte} (hr : s.runState = .notStarted)
    (hlen : bytes.length ≤ maxProgramLength) (hs : s.Inv) :
    State.Inv { s with program := Memory.ofBytes bytes } :=
  { hs with
    programCanonical := Memory.ofBytes_wf bytes
    programFits := hlen
    headerSeen := fun h => by simp [hr, RunState.pastHeader] at h }

/-! ### Run and Read state -/

theorem hostRun_outside (hr : s.runState ≠ .notStarted) : hostRun s = .refused .runOutsideNotStarted := by
  unfold hostRun
  split
  · contradiction
  all_goals rfl

theorem step_of_notStarted (hr : s.runState = .notStarted) : step s = .next (startRun s) := by
  simp [step, hr]

theorem step_of_terminal (hr : s.runState.isTerminal = true) : step s = .fault .runOver := by
  cases h : s.runState with
  | notStarted | running => simp [h, RunState.isTerminal] at hr
  | haltedOk | endOfProgram | crashed => simp [step, h]

/-- What the host reads once the run has ended (10_state.md R33). -/
theorem hostView_of_terminal (hr : s.runState.isTerminal = true) :
    ∃ v, hostView s = .next v ∧ v.x = s.x ∧ v.f = s.f ∧ v.rem = s.rem ∧ v.flag = s.flag ∧
      v.events = s.events :=
  ⟨_, if_pos hr, rfl, rfl, rfl, rfl, rfl⟩

theorem hostView_before_end (hr : s.runState.isTerminal = false) : hostView s = .refused .viewBeforeEnd := by
  simp [hostView, hr]

/-- The run states the statements list are the terminal ones. -/
theorem isTerminal_of_mem : ∀ r ∈ [RunState.haltedOk, .endOfProgram, .crashed], r.isTerminal = true := by decide

theorem ne_notStarted_of_terminal (hr : s.runState.isTerminal = true) : s.runState ≠ .notStarted :=
  fun h => by simp [h, RunState.isTerminal] at hr

/-! ### The statements -/

/-- Settles O9: the registers read 0, and the rest is the record Construct builds. -/
theorem constructedState : Obligations.ConstructedState := by
  rintro identity units c s rfl
  exact ⟨construct_readReg identity units c, rfl, rfl, rfl, rfl, rfl, rfl, rfl, fun _ => rfl, rfl, rfl, rfl⟩

/-- Settles O10: the base case of the invariant. -/
theorem constructedStateHasInvariant : Obligations.ConstructedStateHasInvariant :=
  ⟨fun identity units _ hc => construct_inv identity units hc, construct_inv _ _ standardConfig_wellFormed⟩

/-- Settles O11: Load program answers only before the run, where the invariant asks no header. -/
theorem loadKeepsInvariant : Obligations.LoadKeepsInvariant := by
  intro s t bytes h
  obtain ⟨hr, hlen, rfl⟩ := hostLoad_next h
  exact ⟨rfl, Memory.read_ofBytes bytes, rfl, load_keeps_inv hr hlen⟩

/-- Settles O12: one law for each answer and each refusal. -/
theorem hostOperationsAnswer : Obligations.HostOperationsAnswer := by
  refine fun s bytes => ⟨fun hr hlen => ⟨_, hostLoad_of_notStarted hr hlen⟩, hostLoad_of_too_long,
    hostLoad_outside bytes, fun hr => ?_, hostRun_outside, fun hr => hostView_of_terminal (isTerminal_of_mem _ hr),
    fun hr => hostView_before_end ?_⟩
  · have hrun : hostRun s = .next (startRun s) := by simp [hostRun, hr]
    exact ⟨hrun.trans (step_of_notStarted hr).symm, _, hrun⟩
  · revert hr
    cases s.runState <;> decide

/-- Settles O23: a terminal run state is not NotStarted. -/
theorem terminalStateIsFinal : Obligations.TerminalStateIsFinal := by
  intro s bytes hr
  have hterm := isTerminal_of_mem _ hr
  have hns := ne_notStarted_of_terminal hterm
  exact ⟨step_of_terminal hterm, hostLoad_outside bytes hns, hostRun_outside hns⟩

end Sys2Proof.Proofs.HostInterface
end

section
/-! The start of a run and one iteration of the run loop (40_run_loop.md, sections 1 and 2). -/

namespace Sys2Proof.Proofs.RunStart

open Sys2Proof.Machine

variable {s t : State}

/-! ### The header check -/

/-- The header check compares four reads. -/
theorem window_eq_magic_iff (p : Memory) : p.window 0 4 = magic ↔
    p.read 0 = some 78 ∧ p.read 1 = some 83 ∧ p.read 2 = some 75 ∧ p.read 3 = some 79 := by
  constructor
  · intro h
    have hread : ∀ k, (if k < 4 then p.read (0 + k) else none) = magic[k]? := fun k => by
      rw [← p.window_getElem?, h]
    exact ⟨hread 0, hread 1, hread 2, hread 3⟩
  · rintro ⟨h0, h1, h2, h3⟩
    refine p.window_of_bytes 0 magic (fun k hk => ?_) 4 (Nat.le_refl 4)
    match k, hk with
    | 0, _ => exact h0
    | 1, _ => exact h1
    | 2, _ => exact h2
    | 3, _ => exact h3

theorem four_le_length_of_window_eq_magic {p : Memory} (h : p.window 0 4 = magic) : 4 ≤ p.length := by
  obtain ⟨-, -, -, h3⟩ := (window_eq_magic_iff p).1 h
  exact Encoding.lt_length_of_read h3

/-- The engine whose program has passed the header check (R73). -/
def accepted (s : State) : State := ((s.emit .start Config.startReason).setPc entry).enter .running

/-- The engine whose program has failed the header check (R72). -/
def rejected (s : State) (r : CrashReason) : State := (s.emit .start Config.startReason).crash r

theorem startRun_of_header (h : s.program.window 0 4 = magic) : startRun s = accepted s := by
  have hlen := four_le_length_of_window_eq_magic h
  rcases startRun_cases s with ⟨hshort, -⟩ | ⟨-, hne, -⟩ | ⟨-, -, hs⟩
  · omega
  · exact absurd h hne
  · exact hs

theorem startRun_of_short (h : s.program.length < 4) : startRun s = rejected s .incompleteBytecode := by
  rcases startRun_cases s with ⟨-, hs⟩ | ⟨hlen, -⟩ | ⟨hlen, -⟩
  · exact hs
  · omega
  · omega

theorem startRun_of_wrong_header (hlen : 4 ≤ s.program.length) (h : s.program.window 0 4 ≠ magic) :
    startRun s = rejected s .invalidHeader := by
  rcases startRun_cases s with ⟨hshort, -⟩ | ⟨-, -, hs⟩ | ⟨-, heq, -⟩
  · omega
  · exact hs
  · exact absurd heq h

/-- Start, then the crash. -/
theorem rejected_logShape (s : State) (r : CrashReason) :
    (rejected s r).logShape = s.logShape ++ [startShape, (.crash, r.code)] := by
  simp [rejected, startShape]

/-! ### Fetch and decode -/

/-- The bytes of an instruction at `pc` are what the engine fetches (R76). -/
theorem fetch_of_encoded {i : Instr} (hc : s.config.WellFormed) (hi : i.wellFormed = true)
    (hbytes : ∀ k, k < (encode s.config.opcodeMap i).length →
      s.program.read (s.pc.toNat + k) = (encode s.config.opcodeMap i)[k]?) :
    ∃ rest, s.fetch = .ok (i, rest) := by
  have hlen : (encode s.config.opcodeMap i).length ≤ maxInstrBytes := by
    rw [Codec.length_encode i]
    exact Codec.length_le_maxInstrBytes i.tag
  rw [State.fetch, s.program.window_of_bytes _ _ hbytes _ hlen]
  exact ⟨_, Codec.decode_encode i _ hc hi _⟩

theorem step_of_encoded {i : Instr} (hc : s.config.WellFormed) (hr : s.runState = .running)
    (hi : i.wellFormed = true)
    (hbytes : ∀ k, k < (encode s.config.opcodeMap i).length →
      s.program.read (s.pc.toNat + k) = (encode s.config.opcodeMap i)[k]?) :
    step s = exec i s := by
  obtain ⟨rest, hf⟩ := fetch_of_encoded hc hi hbytes
  have hpos : 0 < (encode s.config.opcodeMap i).length := by
    rw [Codec.length_encode i]
    exact Codec.length_pos i.tag
  have hlt : s.pc.toNat < s.program.length :=
    Encoding.lt_length_of_read ((hbytes 0 hpos).trans (List.getElem?_eq_getElem hpos))
  exact Encoding.step_of_fetch hr hlt hf

/-- The decoder rejects an operation that has fewer bytes than its length asks for: were there an instruction,
it would have consumed them. -/
theorem decodeOperands_of_short {tag : Tag} {op : Byte} {bytes : List Byte}
    (h : bytes.length + 1 < tag.length) : ∃ e, decodeOperands tag op bytes = .error e := by
  cases hd : decodeOperands tag op bytes with
  | error e => exact ⟨e, rfl⟩
  | ok p =>
    have hlen := (Encoding.decodeOperands_ok hd).2
    omega

/-- An instruction cut off by the end of the buffer crashes the run (R80). -/
theorem step_of_truncated {op : Byte} (hr : s.runState = .running)
    (hread : s.program.read s.pc.toNat = some op)
    (hshort : s.program.length < s.pc.toNat + (decodeTag s.config.opcodeMap op).length) :
    step s = .next ((s.advance 1).crash .incompleteBytecode) := by
  have hlt := Encoding.lt_length_of_read hread
  obtain ⟨e, he⟩ : ∃ e, s.fetch = .error e := by
    rw [Encoding.fetch_of_read hread]
    apply decodeOperands_of_short
    rw [Memory.window_length]
    omega
  simp [step, hr, iterate, Nat.not_le.2 hlt, he]

/-- An instruction fetched whole ends within the buffer. -/
theorem fetched_within_buffer {i : Instr} {rest : List Byte} (hf : s.fetch = .ok (i, rest)) :
    s.pc.toNat + i.tag.length ≤ s.program.length := by
  obtain ⟨_, _, _, _, hlen⟩ := Encoding.decode_ok hf
  have hpos := Codec.length_pos i.tag
  rw [Memory.window_length] at hlen
  omega

/-- Below the bound of the buffer `pc` does not wrap. -/
theorem advance_pc_toNat {n : Nat} (h : s.pc.toNat + n ≤ maxProgramLength) :
    (s.advance n).pc.toNat = s.pc.toNat + n := by
  have hbound : maxProgramLength < 2 ^ 32 := by decide
  rw [State.advance_pc, BitVec.toNat_add, BitVec.toNat_ofNat, Nat.mod_eq_of_lt (by omega : n < 2 ^ 32),
    Nat.mod_eq_of_lt (by omega)]

/-! ### The statements -/

/-- Settles O14: the two rejections of the header check. -/
theorem headerRejected : Obligations.HeaderRejected := by
  refine fun s hr => ⟨fun hlen => ?_, fun hlen hne => ?_⟩
  · have hstep := HostInterface.step_of_notStarted hr
    rw [startRun_of_short hlen] at hstep
    exact ⟨_, hstep, rfl, rejected_logShape s _, rfl⟩
  · have hstep := HostInterface.step_of_notStarted hr
    rw [startRun_of_wrong_header hlen (mt (window_eq_magic_iff _).1 hne)] at hstep
    exact ⟨_, hstep, rfl, rejected_logShape s _, rfl⟩

/-- Settles O15: an instruction fetched whole is what the engine executes. -/
theorem stepRunsDecodedInstruction : Obligations.StepRunsDecodedInstruction :=
  fun _ _ _ => Encoding.step_of_fetch

/-- Settles O16: the bytes are fetched, and decode to the instruction by the round trip. -/
theorem stepRunsEncodedBytes : Obligations.StepRunsEncodedBytes :=
  fun _ _ => step_of_encoded

/-- Settles O19: the decoder finds fewer bytes than the operation's length. -/
theorem truncatedInstructionCrashes : Obligations.TruncatedInstructionCrashes := by
  intro s op hr hread _ hshort
  exact ⟨_, step_of_truncated hr hread hshort, rfl, rfl, State.crash_logShape _, rfl⟩

/-- Settles O20: the instruction ends within the buffer, whose bound lies below 2^32. -/
theorem sequentialAdvanceDoesNotWrap : Obligations.SequentialAdvanceDoesNotWrap := by
  intro s i rest hs _ hf
  have hwithin := fetched_within_buffer hf
  exact ⟨hwithin, advance_pc_toNat (hwithin.trans hs.programFits)⟩

end Sys2Proof.Proofs.RunStart
end

section
/-! What every step keeps, and the shape of a run (10_state.md, section 8; 60_exceptions.md, section 2). -/

namespace Sys2Proof.Proofs.Invariant

open Sys2Proof.Machine
open RunStart (accepted rejected)

variable {s t : State}

/-! ### The moves of the engine -/

/-- What a step that answers a next state does, each move with the run state it starts from. -/
inductive Move (s : State) : State → Prop
  | accepts (hr : s.runState = .notStarted) (hheader : s.program.window 0 4 = magic) : Move s (accepted s)
  | rejects (hr : s.runState = .notStarted) (r : CrashReason) (hreason : r ≠ .arithmeticOverflow) :
      Move s (rejected s r)
  | goesOn (hr : s.runState = .running) (pc : Word) (x : Vector Word 32) (rem : Word) (flag : Bool) :
      Move s { s with pc := pc, x := x, rem := rem, flag := flag }
  | stops (hr : s.runState = .running) (pc : Word) (r : StopReason) : Move s ((s.setPc pc).stop r)
  | crashes (hr : s.runState = .running) (pc : Word) (r : CrashReason)
      (hreason : r = .arithmeticOverflow → s.config.overflowPolicy = .crash) :
      Move s ((s.setPc pc).crash r)

theorem move_of_startRun (hr : s.runState = .notStarted) : Move s (startRun s) := by
  rcases startRun_cases s with ⟨-, h⟩ | ⟨-, -, h⟩ | ⟨-, hheader, h⟩
  · exact h ▸ Move.rejects hr .incompleteBytecode nofun
  · exact h ▸ Move.rejects hr .invalidHeader nofun
  · exact h ▸ Move.accepts hr hheader

theorem move_of_effect (hr : s.runState = .running) (h : Effect s t) : Move s t := by
  cases h with
  | goesOn pc x rem flag => exact Move.goesOn hr pc x rem flag
  | halts pc => exact Move.stops hr pc .gracefulHalt
  | crashes pc r hreason =>
    refine Move.crashes hr pc r fun hover => ?_
    rcases hreason with rfl | rfl | ⟨-, hpolicy⟩
    · cases hover
    · cases hover
    · exact hpolicy

theorem move_of_step (h : step s = .next t) : Move s t := by
  rcases step_next h with ⟨hr, rfl⟩ | ⟨hr, -, rfl⟩ | ⟨hr, -, rfl⟩ | ⟨hr, -, _, _, -, -, heffect⟩
  · exact move_of_startRun hr
  · exact Move.stops hr s.pc .endOfProgram
  · exact Move.crashes hr _ .incompleteBytecode nofun
  · exact move_of_effect hr heffect

/-! ### What a move keeps -/

theorem move_keeps_construction (h : Move s t) :
    t.program = s.program ∧ t.f = s.f ∧ t.heap = s.heap ∧ t.stack = s.stack ∧ t.identity = s.identity ∧
      t.parallelUnits = s.parallelUnits ∧ t.config = s.config := by
  cases h with
  | accepts | rejects | goesOn | stops | crashes => exact ⟨rfl, rfl, rfl, rfl, rfl, rfl, rfl⟩

/-- No move leads back to NotStarted. -/
theorem move_runState_ne_notStarted (h : Move s t) : t.runState ≠ .notStarted := by
  cases h with
  | accepts | rejects | crashes => exact nofun
  | goesOn hr => simp [hr]
  | stops _ _ r => cases r <;> exact nofun

/-- A move appends events of the engine alone. -/
theorem move_stamped (hs : ∀ e ∈ s.events, e.identity = s.identity) (h : Move s t) :
    ∀ e ∈ t.events, e.identity = t.identity := by
  cases h with
  | goesOn => exact hs
  | accepts | rejects | stops | crashes =>
    simpa [accepted, rejected, or_imp, forall_and] using hs

theorem logShape_of_notStarted (h : s.LogFits) (hr : s.runState = .notStarted) : s.logShape = [] := by
  simpa [State.LogFits, hr] using h

theorem logShape_of_running (h : s.LogFits) (hr : s.runState = .running) : s.logShape = [startShape] := by
  simpa [State.LogFits, hr] using h

/-- The event a move appends is the one its run state calls for (60_exceptions.md R113). -/
theorem move_logFits (hs : s.LogFits) (h : Move s t) : t.LogFits := by
  cases h with
  | accepts hr =>
    show (accepted s).logShape = [startShape]
    simp [accepted, logShape_of_notStarted hs hr, startShape]
  | rejects hr r hreason =>
    refine ⟨r, ?_, fun hover => absurd hover hreason⟩
    rw [RunStart.rejected_logShape, logShape_of_notStarted hs hr]
    rfl
  | goesOn hr => exact hs
  | stops hr pc r =>
    have hlog : ((s.setPc pc).stop r).logShape = [startShape, (.gracefulStop, r.code)] := by
      simp [logShape_of_running hs hr]
    cases r <;> exact hlog
  | crashes hr pc r hreason =>
    exact ⟨r, by simp [logShape_of_running hs hr], hreason⟩

/-- Only the header check leads from NotStarted to a run state past it. -/
theorem move_headerSeen (hs : s.runState.pastHeader = true → s.program.window 0 4 = magic) (h : Move s t)
    (ht : t.runState.pastHeader = true) : t.program.window 0 4 = magic := by
  cases h with
  | accepts _ hheader => exact hheader
  | rejects | crashes => cases ht
  | goesOn hr => exact hs ht
  | stops hr => exact hs (by rw [hr]; rfl)

theorem move_keeps_inv (hs : s.Inv) (h : Move s t) : t.Inv := by
  obtain ⟨hprogram, hf, -, -, -, -, hconfig⟩ := move_keeps_construction h
  exact
    { programCanonical := hprogram ▸ hs.programCanonical
      programFits := hprogram ▸ hs.programFits
      configLegal := hconfig ▸ hs.configLegal
      fpZero := hf.trans hs.fpZero
      logFits := move_logFits hs.logFits h
      stamped := move_stamped hs.stamped h
      headerSeen := move_headerSeen hs.headerSeen h
      fresh := fun hr => absurd hr (move_runState_ne_notStarted h) }

theorem step_keeps_inv (hs : s.Inv) (h : step s = .next t) : t.Inv :=
  move_keeps_inv hs (move_of_step h)

/-! ### When there is a next state -/

/-- An instruction answers a next state or the one refusal (10_state.md R25). -/
theorem exec_answers (i : Instr) (s : State) : (∃ t, exec i s = .next t) ∨
    (s.config.fpBankReachable = true ∧ exec i s = .refused .fpBankSemantics) := by
  obtain ⟨t, he, -⟩ := exec_effect i s
  by_cases hu : s.RegsUsable i.regs
  · exact .inl ⟨t, he.trans (State.withRegs_of_usable hu _)⟩
  · refine .inr ⟨?_, he.trans (State.withRegs_of_not_usable hu _)⟩
    by_contra hc
    exact hu fun h => absurd h hc

theorem iterate_answers (s : State) : (∃ t, iterate s = .next t) ∨
    (s.config.fpBankReachable = true ∧ iterate s = .refused .fpBankSemantics) := by
  rcases iterate_cases s with ⟨-, h⟩ | ⟨-, -, h⟩ | ⟨-, i, _, -, h⟩
  · exact .inl ⟨_, h⟩
  · exact .inl ⟨_, h⟩
  · exact h ▸ exec_answers i s

/-- The three outcomes of a step, each with the run states that give it. -/
theorem step_answers (s : State) :
    (s.runState.isTerminal = true ∧ step s = .fault .runOver) ∨
    (s.runState.isTerminal = false ∧ ∃ t, step s = .next t) ∨
    (s.runState = .running ∧ s.config.fpBankReachable = true ∧ step s = .refused .fpBankSemantics) := by
  cases hr : s.runState with
  | notStarted => exact .inr (.inl ⟨rfl, _, HostInterface.step_of_notStarted hr⟩)
  | running =>
    have hstep : step s = iterate s := by simp [step, hr]
    rcases iterate_answers s with ⟨t, h⟩ | ⟨hc, h⟩
    · exact .inr (.inl ⟨rfl, t, hstep.trans h⟩)
    · exact .inr (.inr ⟨rfl, hc, hstep.trans h⟩)
  | haltedOk | endOfProgram | crashed =>
    exact .inl ⟨rfl, HostInterface.step_of_terminal (by rw [hr]; rfl)⟩

/-! ### Runs -/

theorem runSteps_succ_next {k : Nat} (h : runSteps (k + 1) s = .next t) :
    ∃ u, step s = .next u ∧ runSteps k u = .next t := by
  rw [runSteps_succ] at h
  split at h
  · exact ⟨_, ‹_›, h⟩
  · cases h
  · cases h

/-- What every step keeps holds after every number of steps. -/
theorem runSteps_induct {P : State → Prop} (hstep : ∀ s t, P s → step s = .next t → P t) (k : Nat) :
    ∀ {s t : State}, P s → runSteps k s = .next t → P t := by
  induction k with
  | zero =>
    intro s t hs h
    cases h
    exact hs
  | succ k ih =>
    intro s t hs h
    obtain ⟨u, hu, hk⟩ := runSteps_succ_next h
    exact ih (hstep s u hs hu) hk

theorem runSteps_keeps_inv {k : Nat} (hs : s.Inv) (h : runSteps k s = .next t) : t.Inv :=
  runSteps_induct (fun _ _ => step_keeps_inv) k hs h

theorem runSteps_identity {k : Nat} (h : runSteps k s = .next t) : t.identity = s.identity := by
  refine runSteps_induct (P := fun u => u.identity = s.identity) (fun u v hu hv => ?_) k rfl h
  obtain ⟨-, -, -, -, hid, -, -⟩ := move_keeps_construction (move_of_step hv)
  exact hid.trans hu

/-- A run that has made a step has started. -/
theorem runSteps_ne_notStarted {k : Nat} (h : runSteps (k + 1) s = .next t) : t.runState ≠ .notStarted := by
  obtain ⟨u, hu, hk⟩ := runSteps_succ_next h
  exact runSteps_induct (P := fun u => u.runState ≠ .notStarted)
    (fun _ _ _ hv => move_runState_ne_notStarted (move_of_step hv)) k
    (move_runState_ne_notStarted (move_of_step hu)) hk

theorem loaded_inv {identity units : Nat} {c : Config} {bytes : List Byte} (hc : c.WellFormed)
    (h : hostLoad bytes (State.construct identity units c) = .next s) : s.Inv := by
  obtain ⟨hr, hlen, rfl⟩ := HostInterface.hostLoad_next h
  exact HostInterface.load_keeps_inv hr hlen (HostInterface.construct_inv identity units hc)

theorem loaded_identity {identity units : Nat} {c : Config} {bytes : List Byte}
    (h : hostLoad bytes (State.construct identity units c) = .next s) : s.identity = identity := by
  obtain ⟨-, -, rfl⟩ := HostInterface.hostLoad_next h
  rfl

/-- Every event of a run carries the identity its engine was constructed with (60_exceptions.md R120). -/
theorem run_stamped {identity units k : Nat} {c : Config} {bytes : List Byte} (hc : c.WellFormed)
    (hload : hostLoad bytes (State.construct identity units c) = .next s) (hrun : runSteps k s = .next t) :
    ∀ e ∈ t.events, e.identity = identity := fun e he => by
  rw [(runSteps_keeps_inv (loaded_inv hc hload) hrun).stamped e he, runSteps_identity hrun,
    loaded_identity hload]

theorem eq_running_of_not_terminal {r : RunState} (hstarted : r ≠ .notStarted) (hterm : r.isTerminal = false) :
    r = .running := by
  cases r with
  | notStarted => contradiction
  | running => rfl
  | haltedOk | endOfProgram | crashed => cases hterm

/-- The log of an ended run is Start and one terminal event. -/
theorem logShape_of_terminal (h : s.LogFits) (hr : s.runState.isTerminal = true) :
    ∃ tag reason, tag ≠ EventTag.start ∧ s.logShape = [startShape, (tag, reason)] := by
  unfold State.LogFits at h
  split at h
  case h_1 hr' | h_2 hr' => simp [hr', RunState.isTerminal] at hr
  case h_3 | h_4 => exact ⟨.gracefulStop, _, nofun, h⟩
  case h_5 =>
    obtain ⟨r, hlog, -⟩ := h
    exact ⟨.crash, _, nofun, hlog⟩

/-! ### The termination primitives -/

/-- What the primitives have in common (60_exceptions.md R112). -/
theorem primitive_ends_run (h : t = s.stop .gracefulHalt ∨ t = s.stop .endOfProgram ∨ ∃ r, t = s.crash r) :
    t.runState.isTerminal = true ∧
      t = { s with runState := t.runState, events := t.events, clockDraws := t.clockDraws } ∧
      ∃ e, t.events = s.events ++ [e] := by
  rcases h with rfl | rfl | ⟨r, rfl⟩
  all_goals exact ⟨rfl, rfl, _, rfl⟩

theorem event_of_stop {r : StopReason} {e : Event} (he : t.events = s.events ++ [e]) (h : t = s.stop r) :
    t.runState = r.runState ∧ e.tag = .gracefulStop ∧ e.reason = r.code := by
  subst h
  obtain rfl : s.stamp .gracefulStop r.code = e := by simpa using he
  exact ⟨rfl, rfl, rfl⟩

theorem event_of_crash {r : CrashReason} {e : Event} (he : t.events = s.events ++ [e]) (h : t = s.crash r) :
    t.runState = .crashed ∧ e.tag = .crash ∧ e.reason = r.code := by
  subst h
  obtain rfl : s.stamp .crash r.code = e := by simpa using he
  exact ⟨rfl, rfl, rfl⟩

/-! ### The statements -/

/-- Settles O21: the invariant is kept by each move. -/
theorem stepKeepsInvariant : Obligations.StepKeepsInvariant :=
  fun _ _ => step_keeps_inv

/-- Settles O13: the header check accepts by its four reads, and no other move enters Running. -/
theorem headerAccepted : Obligations.HeaderAccepted := by
  refine ⟨fun s hr h0 h1 h2 h3 => ?_, fun s t h hne ht => ?_⟩
  · have hstep := HostInterface.step_of_notStarted hr
    rw [RunStart.startRun_of_header ((RunStart.window_eq_magic_iff _).2 ⟨h0, h1, h2, h3⟩)] at hstep
    refine ⟨_, hstep, rfl, rfl, State.emit_logShape .., rfl, fun hlen => ?_⟩
    have hpc : (accepted s).program.length ≤ (accepted s).pc.toNat := Nat.le_of_eq hlen
    exact ⟨_, RunLoop.step_of_pc_past_end rfl hpc, rfl, State.stop_logShape _⟩
  · cases move_of_step h with
    | accepts hr hheader => exact ⟨hr, (RunStart.window_eq_magic_iff _).1 hheader⟩
    | rejects => cases ht
    | goesOn hr | stops hr | crashes hr => exact absurd hr hne

/-- Settles O22: the invariant along the run, and what it says of a run state that has left NotStarted. -/
theorem runEmitsStartThenOneTerminalEvent : Obligations.RunEmitsStartThenOneTerminalEvent := by
  intro identity units c bytes s t k hc hload hrun
  have hinv := runSteps_keeps_inv (loaded_inv hc hload) hrun
  refine ⟨run_stamped hc hload hrun, ?_⟩
  cases hterm : t.runState.isTerminal with
  | true =>
    exact .inr ⟨rfl, HostInterface.step_of_terminal hterm, logShape_of_terminal hinv.logFits hterm,
      HostInterface.hostView_of_terminal hterm⟩
  | false =>
    have hr := eq_running_of_not_terminal (runSteps_ne_notStarted hrun) hterm
    exact .inl ⟨hr, logShape_of_running hinv.logFits hr, HostInterface.hostView_before_end hterm⟩

/-- Settles O24: the three outcomes of a step exclude each other. -/
theorem engineAlwaysStepsUntilTheEnd : Obligations.EngineAlwaysStepsUntilTheEnd := by
  intro s
  rcases step_answers s with ⟨hterm, h⟩ | ⟨hterm, t, h⟩ | ⟨hr, hc, h⟩
  · simp [h, hterm]
  · simp [h, hterm]
  · simp [h, hr, hc]

/-- Settles O25: the events each move appends. -/
theorem eventsAreAppendOnly : Obligations.EventsAreAppendOnly := by
  refine ⟨fun _ _ _ => rfl, fun s t h => ?_⟩
  cases move_of_step h with
  | accepts hr => exact ⟨[s.stamp .start Config.startReason], rfl, by simp [hr, accepted, RunState.isTerminal]⟩
  | rejects hr r =>
    refine ⟨[s.stamp .start Config.startReason, (s.emit .start Config.startReason).stamp .crash r.code], ?_, ?_⟩
    · simp [rejected]
    · simp [hr, rejected]
  | goesOn hr => exact ⟨[], by simp, by simp [hr, RunState.isTerminal]⟩
  | stops hr pc r =>
    refine ⟨[(s.setPc pc).stamp .gracefulStop r.code], rfl, ?_⟩
    cases r <;> simp [hr, StopReason.runState]
  | crashes hr pc r => exact ⟨[(s.setPc pc).stamp .crash r.code], rfl, by simp [hr]⟩

/-- Settles O26: no move touches these fields. -/
theorem stepKeepsWhatConstructionFixed : Obligations.StepKeepsWhatConstructionFixed :=
  fun _ _ h => move_keeps_construction (move_of_step h)

/-- Settles O31: the event of a primitive is the last of the log, and a move that ends a run is a primitive after a
move of `pc`. -/
theorem terminationPrimitives : Obligations.TerminationPrimitives := by
  refine ⟨fun s t h => ?_, fun s t hr h ht => ?_⟩
  · obtain ⟨hterm, hframe, e, he⟩ := primitive_ends_run h
    exact ⟨HostInterface.step_of_terminal hterm, hframe, e, he, event_of_stop he, event_of_stop he,
      fun _ => event_of_crash he⟩
  · cases move_of_step h with
    | accepts hr' | rejects hr' => simp [hr] at hr'
    | goesOn => simp [hr, RunState.isTerminal] at ht
    | stops _ pc r =>
      cases r with
      | gracefulHalt => exact ⟨pc, .inl rfl⟩
      | endOfProgram => exact ⟨pc, .inr (.inl rfl)⟩
    | crashes _ pc r => exact ⟨pc, .inr (.inr ⟨r, rfl⟩)⟩

/-- Settles O32: an instruction is refused exactly when an operand is not usable. -/
theorem fpIndicesAreRefusedOnlyWhenReachable : Obligations.FpIndicesAreRefusedOnlyWhenReachable := by
  intro i s
  obtain ⟨t, he, -⟩ := exec_effect i s
  refine ⟨fun hu => ⟨t, he.trans (State.withRegs_of_usable hu _)⟩, fun hc b hb hlo hhi => ?_⟩
  have hnot : ¬ s.RegsUsable i.regs := fun hu => by
    have := hu hc b hb
    omega
  exact he.trans (State.withRegs_of_not_usable hnot _)

end Sys2Proof.Proofs.Invariant
end

section
/-! What the host draws has no influence (60_exceptions.md, section 8): an operation, an instruction and a step
give the same from a state and from its erasure, up to what is erased. -/

namespace Sys2Proof.Proofs.Erasure

open Sys2Proof.Machine

variable {s t : State}

/-! ### The operations

The `@[simp]` equations move an erasure outward, so that both sides of a goal come to one erased state. -/

@[simp] theorem erase_erase (s : State) : s.erase.erase = s.erase := by
  simp [State.erase, Event.erase]

@[simp] theorem erase_advance (s : State) (n : Nat) : s.erase.advance n = (s.advance n).erase := rfl
@[simp] theorem erase_setPc (s : State) (v : Word) : s.erase.setPc v = (s.setPc v).erase := rfl
@[simp] theorem erase_writeReg (s : State) (b : Byte) (v : Word) :
    s.erase.writeReg b v = (s.writeReg b v).erase := rfl
@[simp] theorem erase_setFlag (s : State) (v : Bool) : s.erase.setFlag v = (s.setFlag v).erase := rfl
@[simp] theorem erase_setRem (s : State) (v : Word) : s.erase.setRem v = (s.setRem v).erase := rfl
@[simp] theorem erase_readReg (s : State) (b : Byte) : s.erase.readReg b = s.readReg b := rfl
@[simp] theorem erase_overflows (s : State) (n : Int) : s.erase.overflows n = s.overflows n := rfl
@[simp] theorem erase_loadValue (s : State) (imm : Imm16) : s.erase.loadValue imm = s.loadValue imm := rfl
@[simp] theorem erase_pc (s : State) : s.erase.pc = s.pc := rfl
@[simp] theorem erase_program (s : State) : s.erase.program = s.program := rfl
@[simp] theorem erase_runState (s : State) : s.erase.runState = s.runState := rfl
@[simp] theorem erase_fetch (s : State) : s.erase.fetch = s.fetch := rfl

/-- An event's timestamp and identity are erased, whichever engine stamped it. -/
theorem erase_emit_erase (s : State) (tag : EventTag) (r : Nat) :
    (s.erase.emit tag r).erase = (s.emit tag r).erase := by
  simp [State.erase, State.emit, State.stamp, Event.erase]

@[simp] theorem erase_stop_erase (s : State) (r : StopReason) : (s.erase.stop r).erase = (s.stop r).erase :=
  congrArg (State.enter · r.runState) (erase_emit_erase s .gracefulStop r.code)

@[simp] theorem erase_crash_erase (s : State) (r : CrashReason) :
    (s.erase.crash r).erase = (s.crash r).erase :=
  congrArg (State.enter · .crashed) (erase_emit_erase s .crash r.code)

/-! ### Outcomes -/

@[simp] theorem eraseOutcome_next (s : State) : eraseOutcome (.next s) = .next s.erase := rfl

/-- The refusal of an operand is decided by the parameters. -/
theorem erase_withRegs {regs : List Byte} {o o' : Host.Outcome State Fault Refusal}
    (h : eraseOutcome o' = eraseOutcome o) :
    eraseOutcome (s.erase.withRegs regs o') = eraseOutcome (s.withRegs regs o) := by
  by_cases hu : s.RegsUsable regs
  · rw [State.withRegs_of_usable hu, State.withRegs_of_usable (s := s.erase) hu, h]
  · rw [State.withRegs_of_not_usable hu, State.withRegs_of_not_usable (s := s.erase) hu]

/-- Outcomes that are equal once erased are two next states equal once erased, or one stop. -/
theorem eraseOutcome_eq {o o' : Host.Outcome State Fault Refusal} (h : eraseOutcome o = eraseOutcome o') :
    (∃ u v, o = .next u ∧ o' = .next v ∧ u.erase = v.erase) ∨ (∃ r, o = .fault r ∧ o' = .fault r) ∨
      ∃ r, o = .refused r ∧ o' = .refused r := by
  cases o with
  | next u =>
    cases o' with
    | next v => exact .inl ⟨u, v, rfl, rfl, Host.Outcome.next.inj h⟩
    | fault | refused => cases h
  | fault r =>
    cases o' with
    | fault => exact .inr (.inl ⟨r, rfl, by cases h; rfl⟩)
    | next | refused => cases h
  | refused r =>
    cases o' with
    | refused => exact .inr (.inr ⟨r, rfl, by cases h; rfl⟩)
    | next | fault => cases h

/-! ### Instructions -/

theorem erase_arith (s : State) (op : Int → Int → Int) (rs1 rs2 rd : Byte) :
    eraseOutcome (s.erase.arith op rs1 rs2 rd) = eraseOutcome (s.arith op rs1 rs2 rd) := by
  apply erase_withRegs
  cases hn : s.overflows (op (s.readReg rs1).toInt (s.readReg rs2).toInt) <;> simp [hn]

theorem erase_execDiv (s : State) (rs1 rs2 rd : Byte) :
    eraseOutcome (execDiv rs1 rs2 rd s.erase) = eraseOutcome (execDiv rs1 rs2 rd s) := by
  apply erase_withRegs
  by_cases hb : (s.readReg rs2).toInt = 0
  · simp [hb]
  · cases hn : s.overflows ((s.readReg rs1).toInt.tdiv (s.readReg rs2).toInt) <;> simp [hb, hn]

theorem erase_compare (s : State) (r : Relation) (ra rb : Byte) :
    eraseOutcome (s.erase.compare r ra rb) = eraseOutcome (s.compare r ra rb) :=
  erase_withRegs (by simp)

theorem erase_jump (s : State) (target : Int → Int) (rr : Byte) :
    eraseOutcome (s.erase.jump target rr) = eraseOutcome (s.jump target rr) :=
  erase_withRegs (by simp)

theorem erase_execLoad (s : State) (rd : Byte) (imm : Imm16) :
    eraseOutcome (execLoad rd imm s.erase) = eraseOutcome (execLoad rd imm s) :=
  erase_withRegs (by simp)

theorem erase_exec (i : Instr) (s : State) : eraseOutcome (exec i s.erase) = eraseOutcome (exec i s) := by
  cases i with
  | halt => exact congrArg Host.Outcome.next (erase_stop_erase (s.advance 1) _)
  | illegal op => exact congrArg Host.Outcome.next (erase_crash_erase (s.advance 1) _)
  | load rd imm => exact erase_execLoad s rd imm
  | add rs1 rs2 rd | sub rs1 rs2 rd | mul rs1 rs2 rd => exact erase_arith s _ rs1 rs2 rd
  | div rs1 rs2 rd => exact erase_execDiv s rs1 rs2 rd
  | eq ra rb filler | neq ra rb filler | gt ra rb filler | gte ra rb filler | lt ra rb filler
  | lte ra rb filler => exact erase_compare s _ ra rb
  | jmp rr => exact erase_jump s (fun v => v) rr
  | jmpForward rr | jmpBackward rr => exact erase_jump s _ rr

/-! ### Steps and runs -/

/-- The header check reads the program alone. -/
theorem erase_startRun (s : State) : (startRun s.erase).erase = (startRun s).erase := by
  have hemit := erase_emit_erase s .start Config.startReason
  have hreject : ∀ r, (RunStart.rejected s.erase r).erase = (RunStart.rejected s r).erase := fun r => by
    rw [RunStart.rejected, ← erase_crash_erase, hemit, erase_crash_erase, RunStart.rejected]
  rcases startRun_cases s with ⟨hshort, h⟩ | ⟨hlen, hne, h⟩ | ⟨-, hheader, h⟩
  · rw [RunStart.startRun_of_short (s := s.erase) hshort, h]
    exact hreject _
  · rw [RunStart.startRun_of_wrong_header (s := s.erase) hlen hne, h]
    exact hreject _
  · rw [RunStart.startRun_of_header (s := s.erase) hheader, h]
    exact congrArg (fun u => (u.setPc entry).enter .running) hemit

theorem erase_iterate (s : State) : eraseOutcome (iterate s.erase) = eraseOutcome (iterate s) := by
  unfold iterate
  rw [erase_program, erase_pc, erase_fetch]
  split
  · simp
  · split
    · simp
    · exact erase_exec _ s

theorem erase_step (s : State) : eraseOutcome (step s.erase) = eraseOutcome (step s) := by
  unfold step
  rw [erase_runState]
  split
  · exact congrArg Host.Outcome.next (erase_startRun s)
  · exact erase_iterate s
  all_goals rfl

theorem step_erase_congr (h : s.erase = t.erase) : eraseOutcome (step s) = eraseOutcome (step t) := by
  rw [← erase_step s, h, erase_step t]

theorem runSteps_erase_congr (k : Nat) : ∀ {s t : State}, s.erase = t.erase →
    eraseOutcome (runSteps k s) = eraseOutcome (runSteps k t) := by
  induction k with
  | zero => exact fun h => congrArg Host.Outcome.next h
  | succ k ih =>
    intro s t h
    rw [runSteps_succ, runSteps_succ]
    rcases eraseOutcome_eq (step_erase_congr h) with ⟨u, v, hu, hv, huv⟩ | ⟨r, hs, ht⟩ | ⟨r, hs, ht⟩
    · rw [hu, hv]
      exact ih huv
    · rw [hs, ht]
    · rw [hs, ht]

/-! ### The statements -/

/-- Settles O29: both states step as their common erasure does. -/
theorem hostDrawsDoNotInfluenceAStep : Obligations.HostDrawsDoNotInfluenceAStep :=
  fun _ _ => step_erase_congr

/-- Settles O30: engines constructed alike and loaded with one program are equal once erased. -/
theorem enginesRunningOneProgramAgree : Obligations.EnginesRunningOneProgramAgree := by
  intro id₁ id₂ units₁ units₂ c bytes s₁ s₂ hc h₁ h₂ k
  have herase : s₁.erase = s₂.erase := by
    obtain ⟨-, -, rfl⟩ := HostInterface.hostLoad_next h₁
    obtain ⟨-, -, rfl⟩ := HostInterface.hostLoad_next h₂
    rfl
  exact ⟨runSteps_erase_congr k herase, fun t => Invariant.run_stamped hc h₁,
    fun t => Invariant.run_stamped hc h₂⟩

end Sys2Proof.Proofs.Erasure
end

section
/-! The instructions, each with its result and its frame (41_halt.md to 44_comparison.md). -/

namespace Sys2Proof.Proofs.Instructions

open Sys2Proof.Machine

variable {s t : State} {rs1 rs2 rd : Byte}

/-! ### Words and exact results -/

theorem wrap32_toInt (a : Word) : wrap32 a.toInt = a := BitVec.ofInt_toInt

theorem wrap32_add (a b : Word) : wrap32 (a.toInt + b.toInt) = a + b := by
  rw [wrap32, BitVec.ofInt_add, BitVec.ofInt_toInt, BitVec.ofInt_toInt]

theorem wrap32_sub (a b : Word) : wrap32 (a.toInt - b.toInt) = a - b := by
  rw [wrap32, Int.sub_eq_add_neg, BitVec.ofInt_add, BitVec.ofInt_neg, BitVec.ofInt_toInt, BitVec.ofInt_toInt,
    BitVec.sub_eq_add_neg]

theorem wrap32_mul (a b : Word) : wrap32 (a.toInt * b.toInt) = a * b := by
  rw [wrap32, BitVec.ofInt_mul, BitVec.ofInt_toInt, BitVec.ofInt_toInt]

/-- In range, narrowing loses nothing (00_scope.md R12). -/
theorem toInt_wrap32 {n : Int} (hlo : -2 ^ 31 ≤ n) (hhi : n < 2 ^ 31) : (wrap32 n).toInt = n :=
  BitVec.toInt_ofInt_eq_self (by decide) hlo hhi

theorem word_bounds (a : Word) : -2 ^ 31 ≤ a.toInt ∧ a.toInt < 2 ^ 31 := ⟨a.le_toInt, a.toInt_lt⟩

/-! ### Halt, Illegal and Load -/

theorem loadValue_toInt_of_unsigned (imm : Imm16) (h : s.config.loadImmSigned = false) :
    (s.loadValue imm).toInt = imm.toNat := by
  have hlt := imm.isLt
  rw [State.loadValue, h, if_neg Bool.false_ne_true, BitVec.zeroExtend, BitVec.toInt_setWidth]
  exact Int.bmod_eq_of_le (by omega) (by omega)

theorem loadValue_toInt_of_signed (imm : Imm16) (h : s.config.loadImmSigned = true) :
    (s.loadValue imm).toInt = imm.toInt := by
  rw [State.loadValue, if_pos h]
  exact BitVec.toInt_signExtend_of_le (by decide)

/-- What an instruction of four bytes leaves that writes a register and goes on. -/
theorem readReg_advance_writeReg (s : State) (rd : Byte) (v : Word) (b : Byte) :
    ((s.advance 4).writeReg rd v).readReg b = if b = rd ∧ rd.toNat ≤ 31 then v else s.readReg b :=
  (s.advance 4).readReg_writeReg rd b v

/-- An instruction of one byte is fetched whatever follows it. -/
theorem step_of_one_byte {i : Instr} {op : Byte} (hc : s.config.WellFormed) (hr : s.runState = .running)
    (hi : i.wellFormed = true) (hbytes : encode s.config.opcodeMap i = [op])
    (hread : s.program.read s.pc.toNat = some op) : step s = exec i s := by
  refine RunStart.step_of_encoded hc hr hi fun k hk => ?_
  rw [hbytes] at hk ⊢
  obtain rfl : k = 0 := Nat.lt_one_iff.1 hk
  exact hread

/-! ### Add, Sub and Mul -/

/-- A result that is kept goes to the destination (43_arithmetic.md R90). -/
theorem arith_of_kept {op : Int → Int → Int} (hu : s.RegsUsable [rs1, rs2, rd])
    (hk : s.ResultKept (op (s.readReg rs1).toInt (s.readReg rs2).toInt)) :
    s.arith op rs1 rs2 rd
      = .next ((s.advance 4).writeReg rd (wrap32 (op (s.readReg rs1).toInt (s.readReg rs2).toInt))) := by
  simp [State.arith, State.withRegs_of_usable hu, (s.overflows_eq_false_iff _).2 hk]

theorem arith_of_overflow {op : Int → Int → Int} (hu : s.RegsUsable [rs1, rs2, rd])
    (hpolicy : s.config.overflowPolicy = .crash)
    (hn : ¬ (-2 ^ 31 ≤ op (s.readReg rs1).toInt (s.readReg rs2).toInt ∧
      op (s.readReg rs1).toInt (s.readReg rs2).toInt < 2 ^ 31)) :
    s.arith op rs1 rs2 rd = .next ((s.advance 4).crash .arithmeticOverflow) := by
  simp [State.arith, State.withRegs_of_usable hu, (s.overflows_eq_true_iff _).2 ⟨hpolicy, hn⟩]

/-- The result and the frame of Add, Sub and Mul, given the operation on words that their exact operation wraps
to. -/
theorem arith_result (op : Int → Int → Int) {v : Word} (hu : s.RegsUsable [rs1, rs2, rd])
    (hk : s.ResultKept (op (s.readReg rs1).toInt (s.readReg rs2).toInt))
    (hv : wrap32 (op (s.readReg rs1).toInt (s.readReg rs2).toInt) = v) :
    ∃ t, s.arith op rs1 rs2 rd = .next t ∧ t.pc = s.pc + 4 ∧
      (∀ b, t.readReg b = if b = rd ∧ rd.toNat ≤ 31 then v else s.readReg b) ∧
      (rd.toNat ≤ 31 → -2 ^ 31 ≤ op (s.readReg rs1).toInt (s.readReg rs2).toInt →
        op (s.readReg rs1).toInt (s.readReg rs2).toInt < 2 ^ 31 →
        (t.readReg rd).toInt = op (s.readReg rs1).toInt (s.readReg rs2).toInt) ∧
      t = { s with pc := t.pc, x := t.x } := by
  have hread := readReg_advance_writeReg s rd v
  subst hv
  refine ⟨_, arith_of_kept hu hk, rfl, hread, fun hrd hlo hhi => ?_, rfl⟩
  rw [hread, if_pos ⟨rfl, hrd⟩, toInt_wrap32 hlo hhi]

/-! ### Div -/

theorem execDiv_of_zero (hu : s.RegsUsable [rs1, rs2, rd]) (hb : s.readReg rs2 = 0) :
    execDiv rs1 rs2 rd s = .next ((s.advance 4).crash .divisionByZero) := by
  simp [execDiv, State.withRegs_of_usable hu, hb]

theorem execDiv_of_kept (hu : s.RegsUsable [rs1, rs2, rd]) (hb : (s.readReg rs2).toInt ≠ 0)
    (hk : s.ResultKept ((s.readReg rs1).toInt.tdiv (s.readReg rs2).toInt)) :
    execDiv rs1 rs2 rd s
      = .next (((s.advance 4).writeReg rd (wrap32 ((s.readReg rs1).toInt.tdiv (s.readReg rs2).toInt))).setRem
          (wrap32 ((s.readReg rs1).toInt.tmod (s.readReg rs2).toInt))) := by
  simp only [execDiv, State.withRegs_of_usable hu, if_neg hb, (s.overflows_eq_false_iff _).2 hk,
    Bool.false_eq_true, if_false]

theorem execDiv_of_overflow (hu : s.RegsUsable [rs1, rs2, rd]) (hpolicy : s.config.overflowPolicy = .crash)
    (ha : (s.readReg rs1).toInt = -2 ^ 31) (hb : (s.readReg rs2).toInt = -1) :
    execDiv rs1 rs2 rd s = .next ((s.advance 4).crash .arithmeticOverflow) := by
  have hover : s.overflows ((-2 ^ 31 : Int).tdiv (-1)) = true :=
    (s.overflows_eq_true_iff _).2 ⟨hpolicy, by decide⟩
  simp only [execDiv, State.withRegs_of_usable hu, ha, hb, hover, if_true]
  rfl

theorem natAbs_tmod_lt (A : Int) {B : Int} (hB : B ≠ 0) : (A.tmod B).natAbs < B.natAbs := by
  rw [Int.natAbs_tmod]
  exact Nat.mod_lt _ (Int.natAbs_pos.2 hB)

/-- The one quotient out of range is that of -2^31 by -1: a quotient is no larger than the dividend, so only 2^31
could be, and then the divisor is -1 because the remainder is smaller than it (R94, the spec's D7). -/
theorem tdiv_in_range {A B : Int} (hA : -2 ^ 31 ≤ A ∧ A < 2 ^ 31) (hB : B ≠ 0)
    (hcorner : ¬ (A = -2 ^ 31 ∧ B = -1)) : -2 ^ 31 ≤ A.tdiv B ∧ A.tdiv B < 2 ^ 31 := by
  have hle := Int.natAbs_tdiv_le_natAbs A B
  have hrem := natAbs_tmod_lt A hB
  have hdiv := Int.mul_tdiv_add_tmod A B
  by_contra hout
  have hq : A.tdiv B = 2 ^ 31 := by omega
  rw [hq] at hle hdiv
  omega

theorem tmod_in_range (A : Int) {B : Int} (hB : B ≠ 0) (hbound : -2 ^ 31 ≤ B ∧ B < 2 ^ 31) :
    -2 ^ 31 ≤ A.tmod B ∧ A.tmod B < 2 ^ 31 := by
  have hrem := natAbs_tmod_lt A hB
  omega

/-- The remainder has the sign of the dividend, or is 0 (R95). -/
theorem tmod_eq_zero_or_sign_eq (A B : Int) : A.tmod B = 0 ∨ (A.tmod B).sign = A.sign := by
  by_cases h : B ∣ A
  · exact .inl (Int.tmod_eq_zero_of_dvd h)
  · exact .inr (by rw [Int.sign_tmod, if_neg h])

/-! ### Comparisons -/

theorem compare_of_usable {ra rb : Byte} (r : Relation) (hu : s.RegsUsable [ra, rb]) :
    s.compare r ra rb = .next ((s.advance 4).setFlag (r.holds (s.readReg ra) (s.readReg rb))) :=
  State.withRegs_of_usable hu _

theorem holds_eq_iff (a b : Word) : Relation.eq.holds a b = true ↔ a = b :=
  decide_eq_true_iff.trans BitVec.toInt_inj

theorem holds_neq_iff (a b : Word) : Relation.neq.holds a b = true ↔ a ≠ b :=
  decide_eq_true_iff.trans (not_congr BitVec.toInt_inj)

theorem holds_lt (a b : Word) : Relation.lt.holds a b = BitVec.slt a b := BitVec.slt_eq_decide.symm
theorem holds_lte (a b : Word) : Relation.lte.holds a b = BitVec.sle a b := BitVec.sle_eq_decide.symm
theorem holds_gt (a b : Word) : Relation.gt.holds a b = BitVec.slt b a := BitVec.slt_eq_decide.symm
theorem holds_gte (a b : Word) : Relation.gte.holds a b = BitVec.sle b a := BitVec.sle_eq_decide.symm

/-! ### What an instruction leaves unwritten -/

theorem withRegs_next {regs : List Byte} {o : Host.Outcome State Fault Refusal}
    (h : s.withRegs regs o = .next t) : o = .next t := by
  by_cases hu : s.RegsUsable regs
  · rwa [State.withRegs_of_usable hu] at h
  · rw [State.withRegs_of_not_usable hu] at h
    cases h

theorem arith_keeps {op : Int → Int → Int} (h : s.arith op rs1 rs2 rd = .next t) :
    t.rem = s.rem ∧ t.flag = s.flag := by
  have h := withRegs_next h
  dsimp only at h
  split at h
  all_goals
    cases h
    exact ⟨rfl, rfl⟩

theorem execDiv_keeps (h : execDiv rs1 rs2 rd s = .next t) : t.flag = s.flag := by
  have h := withRegs_next h
  dsimp only at h
  split at h
  · cases h
    rfl
  · split at h
    all_goals
      cases h
      rfl

theorem execLoad_keeps {imm : Imm16} (h : execLoad rd imm s = .next t) : t.rem = s.rem ∧ t.flag = s.flag := by
  cases withRegs_next h
  exact ⟨rfl, rfl⟩

theorem compare_keeps {r : Relation} {ra rb : Byte} (h : s.compare r ra rb = .next t) :
    t.x = s.x ∧ t.rem = s.rem := by
  cases withRegs_next h
  exact ⟨rfl, rfl⟩

theorem jump_keeps {target : Int → Int} {rr : Byte} (h : s.jump target rr = .next t) :
    t.x = s.x ∧ t.rem = s.rem ∧ t.flag = s.flag := by
  cases withRegs_next h
  exact ⟨rfl, rfl, rfl⟩

/-! ### The statements -/

/-- Settles O27: what the shared rule of each group of instructions leaves unwritten. -/
theorem writersOfEachRegister : Obligations.WritersOfEachRegister := by
  intro i s t h
  cases i with
  | halt | illegal op =>
    cases h
    simp
  | load rd imm => simp [Instr.tag, execLoad_keeps h]
  | add rs1 rs2 rd | sub rs1 rs2 rd | mul rs1 rs2 rd => simp [Instr.tag, arith_keeps h]
  | div rs1 rs2 rd => simp [Instr.tag, execDiv_keeps h]
  | eq ra rb filler | neq ra rb filler | gt ra rb filler | gte ra rb filler | lt ra rb filler
  | lte ra rb filler => simp [Instr.tag, compare_keeps h]
  | jmp rr => simp [jump_keeps (target := fun v => v) h]
  | jmpForward rr | jmpBackward rr => simp [jump_keeps h]

/-- Settles O33: Halt is its opcode byte alone. -/
theorem haltStopsTheRun : Obligations.HaltStopsTheRun := by
  refine fun s => ⟨⟨_, rfl, rfl, rfl, State.stop_logShape _, rfl⟩, fun hc hr hread => ?_⟩
  exact step_of_one_byte hc hr rfl rfl hread

/-- Settles O34: Illegal is its byte alone. -/
theorem illegalCrashesTheRun : Obligations.IllegalCrashesTheRun := by
  refine fun op s => ⟨⟨_, rfl, rfl, rfl, State.crash_logShape _, rfl⟩, fun hc hr hread hop => ?_⟩
  exact step_of_one_byte hc hr (decide_eq_true hop) rfl hread

/-- Settles O35: the two extensions of the immediate, and the register written. -/
theorem loadWritesTheImmediate : Obligations.LoadWritesTheImmediate := by
  intro s rd imm hu
  exact ⟨_, s.loadValue imm, State.withRegs_of_usable hu _, rfl, loadValue_toInt_of_unsigned imm,
    loadValue_toInt_of_signed imm, readReg_advance_writeReg s rd _, rfl⟩

/-- Settles O36: the exact sum wraps to the sum of the words. -/
theorem addWritesTheSum : Obligations.AddWritesTheSum :=
  fun _ _ _ _ hu hk => arith_result (fun a b => a + b) hu hk (wrap32_add _ _)

/-- Settles O37: the exact difference wraps to the difference of the words. -/
theorem subWritesTheDifference : Obligations.SubWritesTheDifference :=
  fun _ _ _ _ hu hk => arith_result (fun a b => a - b) hu hk (wrap32_sub _ _)

/-- Settles O38: the exact product wraps to the product of the words. -/
theorem mulWritesTheLowProduct : Obligations.MulWritesTheLowProduct :=
  fun _ _ _ _ hu hk => arith_result (fun a b => a * b) hu hk (wrap32_mul _ _)

/-- Settles O39: but for the corner, quotient and remainder are in range, so that their words hold them
exactly. -/
theorem divWritesQuotientAndRemainder : Obligations.DivWritesQuotientAndRemainder := by
  rintro s rs1 rs2 rd hu A B hA hB hne hkept
  have hArange := hA ▸ word_bounds (s.readReg rs1)
  have hBrange := hB ▸ word_bounds (s.readReg rs2)
  have hexec := execDiv_of_kept (s := s) (rs1 := rs1) (rs2 := rs2) hu (hB ▸ hne)
    (hA ▸ hB ▸ hkept.imp_right (tdiv_in_range hArange hne))
  rw [← hA, ← hB] at hexec
  refine ⟨_, wrap32 (A.tdiv B), wrap32 (A.tmod B), hexec, rfl, readReg_advance_writeReg s rd _, rfl,
    fun hcorner => ?_, ?_, rfl⟩
  · obtain ⟨hqlo, hqhi⟩ := tdiv_in_range hArange hne hcorner
    obtain ⟨hrlo, hrhi⟩ := tmod_in_range A hne hBrange
    rw [toInt_wrap32 hqlo hqhi, toInt_wrap32 hrlo hrhi]
    exact ⟨(Int.mul_tdiv_add_tmod A B).symm, natAbs_tmod_lt A hne, tmod_eq_zero_or_sign_eq A B⟩
  · rintro ⟨rfl, rfl⟩
    decide

/-- Settles O40: the divisor reads 0. -/
theorem divByZeroCrashes : Obligations.DivByZeroCrashes := by
  intro s rs1 rs2 rd hu hb
  have hzero : s.readReg rs2 = 0 := hb.elim id (s.readReg_out rs2)
  exact ⟨_, execDiv_of_zero hu hzero, rfl, rfl, State.crash_logShape _, rfl⟩

/-- Settles O41: in each of the four cases the outcome is the one crash. -/
theorem overflowCrashesUnderTheCrashPolicy : Obligations.OverflowCrashesUnderTheCrashPolicy := by
  rintro s rs1 rs2 rd hu hpolicy A B i rfl rfl hcases
  have hexec : exec i s = .next ((s.advance 4).crash .arithmeticOverflow) := by
    rcases hcases with ⟨rfl, hn⟩ | ⟨rfl, hn⟩ | ⟨rfl, hn⟩ | ⟨rfl, ha, hb⟩
    · exact arith_of_overflow (op := fun a b => a + b) hu hpolicy hn
    · exact arith_of_overflow (op := fun a b => a - b) hu hpolicy hn
    · exact arith_of_overflow (op := fun a b => a * b) hu hpolicy hn
    · exact execDiv_of_overflow hu hpolicy ha hb
  exact ⟨_, hexec, rfl, rfl, State.crash_logShape _, rfl⟩

/-- Settles O42: equal signed values are equal words. -/
theorem equalityComparisonsSetTheFlag : Obligations.EqualityComparisonsSetTheFlag :=
  fun _ _ _ _ hu => ⟨⟨_, compare_of_usable .eq hu, rfl, holds_eq_iff _ _, rfl⟩,
    ⟨_, compare_of_usable .neq hu, rfl, holds_neq_iff _ _, rfl⟩⟩

/-- Settles O43: the four relations are the signed orders of the words. -/
theorem orderComparisonsSetTheFlag : Obligations.OrderComparisonsSetTheFlag :=
  fun _ _ _ _ hu => ⟨⟨_, compare_of_usable .gt hu, rfl, holds_gt _ _, rfl⟩,
    ⟨_, compare_of_usable .gte hu, rfl, holds_gte _ _, rfl⟩,
    ⟨_, compare_of_usable .lt hu, rfl, holds_lt _ _, rfl⟩,
    ⟨_, compare_of_usable .lte hu, rfl, holds_lte _ _, rfl⟩⟩

end Sys2Proof.Proofs.Instructions
end

section
/-! The jumps and where they lead (45_jumps.md). -/

namespace Sys2Proof.Proofs.Jumps

open Sys2Proof.Machine

variable {s t : State} {rr : Byte}

/-! ### Targets -/

theorem jump_of_usable (target : Int → Int) (hu : s.RegsUsable [rr]) :
    s.jump target rr = .next (s.setPc (wrap32 (target (s.readReg rr).toInt))) :=
  State.withRegs_of_usable hu _

/-- `mod32`: the word read as unsigned (00_scope.md R12). -/
theorem toNat_wrap32 (n : Int) : ((wrap32 n).toNat : Int) = n % 2 ^ 32 := by
  rw [wrap32, BitVec.toNat_ofInt]
  omega

/-- The base of a relative jump, the offset after the operand byte (R103, the spec's D11). -/
theorem advance_two_pc_toNat (s : State) : (s.advance 2).pc.toNat = (s.pc.toNat + 2) % 2 ^ 32 := rfl

/-- Two bytes past `pc` and two back is `pc`. -/
theorem wrap32_advance_two_sub_two (s : State) : wrap32 (((s.advance 2).pc.toNat : Int) - 2) = s.pc := by
  apply BitVec.eq_of_toNat_eq
  have hmod := toNat_wrap32 (((s.advance 2).pc.toNat : Int) - 2)
  have hpc := s.pc.isLt
  rw [advance_two_pc_toNat] at hmod ⊢
  omega

/-- A negative target lies at or past every buffer's bound (the spec's D9 and D10). -/
theorem maxProgramLength_le_of_negative {n : Int} (hlo : -2 ^ 31 ≤ n) (hneg : n < 0) :
    maxProgramLength ≤ (wrap32 n).toNat := by
  have hmod := toNat_wrap32 n
  have hmax : maxProgramLength = 2 ^ 31 := rfl
  omega

/-! ### The header, and a state that steps to itself -/

/-- Below the entry a program that has passed the header check holds a byte of the header. -/
theorem read_in_header {p : Memory} (h : p.window 0 4 = magic) {a : Nat} (ha : a < 4) :
    ∃ op ∈ magic, p.read a = some op := by
  have hread : p.read a = magic[a]? := by
    rw [← h, p.window_getElem?, if_pos ha, Nat.zero_add]
  have hlt : a < magic.length := ha
  exact ⟨magic[a], List.getElem_mem hlt, hread.trans (List.getElem?_eq_getElem hlt)⟩

theorem runSteps_of_step_self (h : step s = .next s) (n : Nat) : runSteps n s = .next s := by
  induction n with
  | zero => rfl
  | succ n ih =>
    rw [runSteps_succ, h]
    exact ih

/-- Each of the three jumps to itself sets `pc` to what it is. -/
theorem exec_jump_to_self {i : Instr} (hu : s.RegsUsable [rr])
    (h : (i = .jmp rr ∧ s.readReg rr = s.pc) ∨ (i = .jmpForward rr ∧ (s.readReg rr).toInt = -2) ∨
      (i = .jmpBackward rr ∧ (s.readReg rr).toInt = 2)) : exec i s = .next s := by
  rcases h with ⟨rfl, hv⟩ | ⟨rfl, hv⟩ | ⟨rfl, hv⟩
  · refine (jump_of_usable (fun v => v) hu).trans ?_
    rw [hv, Instructions.wrap32_toInt]
    rfl
  · refine (jump_of_usable (fun v => ((s.advance 2).pc.toNat : Int) + v) hu).trans ?_
    rw [hv, ← Int.sub_eq_add_neg, wrap32_advance_two_sub_two]
    rfl
  · refine (jump_of_usable (fun v => ((s.advance 2).pc.toNat : Int) - v) hu).trans ?_
    rw [hv, wrap32_advance_two_sub_two]
    rfl

/-! ### The statements -/

/-- Settles O44: the target modulo 2^32. -/
theorem jmpSetsPc : Obligations.JmpSetsPc :=
  fun _ _ hu => ⟨_, jump_of_usable (fun v => v) hu, toNat_wrap32 _, rfl⟩

/-- Settles O45: the base may wrap before the value is added, which the sum modulo 2^32 does not see. -/
theorem jmpForwardAddsToPc : Obligations.JmpForwardAddsToPc := by
  intro s rr hu
  refine ⟨_, jump_of_usable (fun v => ((s.advance 2).pc.toNat : Int) + v) hu, ?_, rfl⟩
  rw [State.setPc_pc, toNat_wrap32, advance_two_pc_toNat]
  omega

/-- Settles O46: as for JmpForward, with the difference. -/
theorem jmpBackwardSubtractsFromPc : Obligations.JmpBackwardSubtractsFromPc := by
  intro s rr hu
  refine ⟨_, jump_of_usable (fun v => ((s.advance 2).pc.toNat : Int) - v) hu, ?_, rfl⟩
  rw [State.setPc_pc, toNat_wrap32, advance_two_pc_toNat]
  omega

/-- Settles O47: the target lies past the end of every buffer the invariant admits. -/
theorem negativeJmpEndsTheProgram : Obligations.NegativeJmpEndsTheProgram := by
  intro s t rr hs hr hneg h
  obtain ⟨hu, -⟩ := exec_next h
  obtain rfl : s.setPc (wrap32 (s.readReg rr).toInt) = t :=
    Host.Outcome.next.inj ((jump_of_usable (fun v => v) hu).symm.trans h)
  have hpast := maxProgramLength_le_of_negative (s.readReg rr).le_toInt hneg
  refine ⟨_, RunLoop.step_of_pc_past_end hr (hs.programFits.trans hpast), rfl, ?_⟩
  rw [State.stop_logShape, State.setPc_logShape, Invariant.logShape_of_running hs.logFits hr]
  rfl

/-- Settles O48: the header's bytes are Illegal under every legal map. -/
theorem pcInTheHeaderCrashes : Obligations.PcInTheHeaderCrashes := by
  intro s hs hr hpc
  have hheader : s.program.window 0 4 = magic := hs.headerSeen (by rw [hr]; rfl)
  obtain ⟨op, hop, hread⟩ := read_in_header hheader hpc
  have hill := (Laws.decodeTag_eq_illegal_iff _ hs.configLegal op).2 (Encoding.fifteen_le_of_mem_magic op hop)
  refine ⟨_, Encoding.step_of_illegal_byte hr hread hill, rfl, rfl, ?_⟩
  rw [State.crash_logShape, State.advance_logShape, Invariant.logShape_of_running hs.logFits hr]
  rfl

/-- Settles O49: the jump is fetched, and leaves the state as it is. -/
theorem jumpToItselfNeverEnds : Obligations.JumpToItselfNeverEnds := by
  intro s rr i hc hr hu hjump hbytes
  have hexec := exec_jump_to_self hu hjump
  have hshape : i.wellFormed = true ∧ i.tag.length = 2 := by
    rcases hjump with ⟨rfl, -⟩ | ⟨rfl, -⟩ | ⟨rfl, -⟩ <;> exact ⟨rfl, rfl⟩
  obtain ⟨hi, hlen⟩ := hshape
  have hstep : step s = exec i s := by
    refine RunStart.step_of_encoded hc hr hi fun k hk => hbytes k ?_
    rwa [Codec.length_encode i, hlen] at hk
  exact runSteps_of_step_self (hstep.trans hexec)

end Sys2Proof.Proofs.Jumps
end
